-- ==== Sys2Proof/Word.lean ====
section
/-! DEFINITION. The bit-vector types of the instruction word and the value domain of the registers and cells. -/

namespace Sys2Proof

/-- An instruction word: 36 bits, bit 35 the most significant (R7, R10, R60). -/
abbrev Word := BitVec 36

/-- The opcode field, `w[35:32]` (R7, R60). -/
abbrev Opcode := BitVec 4

/-- An operand field, an unsigned 16-bit integer (R7, R10). -/
abbrev Field := BitVec 16

/-- What AC, ECX and every data-memory cell hold: an exact rational, unbounded (R8, R10, decision D1).
Assumption log 1. -/
abbrev Value := Rat

end Sys2Proof
end

