-- ==== Sys2Proof/Syntax.lean ====
section
/-! DEFINITION. The instructions: one constructor per row of spec/opcode_table.json. -/

namespace Sys2Proof

/-- The two registers that an operand can name (R20); PC and IR have no operand code. -/
inductive DataReg where
  /-- The accumulator, operand code 65534 (R21). -/
  | ac
  /-- The loop counter, operand code 65535 (R22). -/
  | ecx
  deriving DecidableEq, Repr

/-- A classified operand: the tagged variant that the addressing scheme gives a 16-bit field (R62, R64). -/
inductive Operand where
  /-- A literal constant, 0 to 32767. -/
  | lit (value : Nat)
  /-- The data-memory slot of this index, 0 to 32765. -/
  | var (slot : Nat)
  /-- AC or ECX. -/
  | reg (r : DataReg)
  deriving DecidableEq, Repr

/-- The instructions (R67). In the data instructions `dst` is operand1 and `src` operand2; in LOOP and the
unassigned words `target` is operand1, a raw instruction index (R66), and `ignored` is bits 15:0, which no
effect reads (R69). The ignored bits are kept so that no bit of a word is lost in decoding. Assumption log 6. -/
inductive Instr where
  | mov (dst src : Operand)
  | add (dst src : Operand)
  | sub (dst src : Operand)
  | mul (dst src : Operand)
  | div (dst src : Operand)
  | loop (target ignored : Field)
  | unassigned6 (target ignored : Field)
  | unassigned7 (target ignored : Field)
  | unassigned8 (target ignored : Field)
  | unassigned9 (target ignored : Field)
  | unassignedA (target ignored : Field)
  | unassignedB (target ignored : Field)
  | unassignedC (target ignored : Field)
  | unassignedD (target ignored : Field)
  | unassignedE (target ignored : Field)
  | unassignedF (target ignored : Field)
  deriving DecidableEq, Repr

end Sys2Proof
end

