-- ==== Sys2Proof/WellFormed.lean ====
section
/-! DEFINITION. Which instruction terms some 36-bit word stands for: the operand ranges of R62. -/

namespace Sys2Proof

/-- A literal is at most 32767 and a slot index at most 32765 (R62, R63). -/
def Operand.wf : Operand → Bool
  | .lit c => decide (c ≤ 32767)
  | .var i => decide (i ≤ 32765)
  | .reg _ => true

/-- Both operands are within their ranges; LOOP's and the unassigned words' fields have no range (R66, R69). -/
def Instr.wf : Instr → Bool
  | .mov d s => d.wf && s.wf
  | .add d s => d.wf && s.wf
  | .sub d s => d.wf && s.wf
  | .mul d s => d.wf && s.wf
  | .div d s => d.wf && s.wf
  | .loop _ _ => true
  | .unassigned6 _ _ => true
  | .unassigned7 _ _ => true
  | .unassigned8 _ _ => true
  | .unassigned9 _ _ => true
  | .unassignedA _ _ => true
  | .unassignedB _ _ => true
  | .unassignedC _ _ => true
  | .unassignedD _ _ => true
  | .unassignedE _ _ => true
  | .unassignedF _ _ => true

end Sys2Proof
end

