-- ==== Sys2Proof/Decode.lean ====
section
/-! DEFINITION. From bits to instructions and back: the fields (R60, R61), the addressing scheme (R62 to R64), the
opcode map (R67), the serial form of a program image (R73, R74) and the host's numbering of a table row. -/

namespace Sys2Proof

/-- The three fields of a word (R60). -/
structure Fields where
  opcode : Opcode
  operand1 : Field
  operand2 : Field
  deriving DecidableEq, Repr

/-- `opcode <- w[35:32]`, `operand1 <- w[31:16]`, `operand2 <- w[15:0]` (R61). -/
def splitFields (w : Word) : Fields :=
  { opcode := w.extractLsb' 32 4, operand1 := w.extractLsb' 16 16, operand2 := w.extractLsb' 0 16 }

/-- `opcode‖operand1‖operand2` (R60). -/
def joinFields (f : Fields) : Word :=
  (f.opcode ++ f.operand1 ++ f.operand2).cast rfl

/-- The operand decoder: four disjoint ranges, total, no failure case (R64). -/
def classify (v : Field) : Operand :=
  if v.toNat ≤ 32767 then .lit v.toNat
  else if v.toNat ≤ 65533 then .var (v.toNat - 32768)
  else if v.toNat = 65534 then .reg .ac
  else .reg .ecx

/-- The 16-bit value that names an operand: a literal's own value, a slot's storage address `32768 + i`, a
register's code (R62). -/
def operandCode : Operand → Field
  | .lit c => BitVec.ofNat 16 c
  | .var i => BitVec.ofNat 16 (32768 + i)
  | .reg .ac => 0xFFFE#16
  | .reg .ecx => 0xFFFF#16

/-- The opcode map (R67), with each opcode's operand roles (R65): the data instructions classify both operands,
LOOP and the unassigned words classify none. Assumption log 9. -/
def decodeFields (f : Fields) : Instr :=
  match f.opcode with
  | 0b0000#4 => .mov (classify f.operand1) (classify f.operand2)
  | 0b0001#4 => .add (classify f.operand1) (classify f.operand2)
  | 0b0010#4 => .sub (classify f.operand1) (classify f.operand2)
  | 0b0011#4 => .mul (classify f.operand1) (classify f.operand2)
  | 0b0100#4 => .div (classify f.operand1) (classify f.operand2)
  | 0b0101#4 => .loop f.operand1 f.operand2
  | 0b0110#4 => .unassigned6 f.operand1 f.operand2
  | 0b0111#4 => .unassigned7 f.operand1 f.operand2
  | 0b1000#4 => .unassigned8 f.operand1 f.operand2
  | 0b1001#4 => .unassigned9 f.operand1 f.operand2
  | 0b1010#4 => .unassignedA f.operand1 f.operand2
  | 0b1011#4 => .unassignedB f.operand1 f.operand2
  | 0b1100#4 => .unassignedC f.operand1 f.operand2
  | 0b1101#4 => .unassignedD f.operand1 f.operand2
  | 0b1110#4 => .unassignedE f.operand1 f.operand2
  | _ => .unassignedF f.operand1 f.operand2  -- 1111, the one value left

/-- Decoding, total on the 2^36 words (R72). -/
def decode (w : Word) : Instr := decodeFields (splitFields w)

/-- The fields of an instruction's word, from the same table (R60, R67). -/
def instrFields : Instr → Fields
  | .mov d s => ⟨0b0000#4, operandCode d, operandCode s⟩
  | .add d s => ⟨0b0001#4, operandCode d, operandCode s⟩
  | .sub d s => ⟨0b0010#4, operandCode d, operandCode s⟩
  | .mul d s => ⟨0b0011#4, operandCode d, operandCode s⟩
  | .div d s => ⟨0b0100#4, operandCode d, operandCode s⟩
  | .loop t x => ⟨0b0101#4, t, x⟩
  | .unassigned6 t x => ⟨0b0110#4, t, x⟩
  | .unassigned7 t x => ⟨0b0111#4, t, x⟩
  | .unassigned8 t x => ⟨0b1000#4, t, x⟩
  | .unassigned9 t x => ⟨0b1001#4, t, x⟩
  | .unassignedA t x => ⟨0b1010#4, t, x⟩
  | .unassignedB t x => ⟨0b1011#4, t, x⟩
  | .unassignedC t x => ⟨0b1100#4, t, x⟩
  | .unassignedD t x => ⟨0b1101#4, t, x⟩
  | .unassignedE t x => ⟨0b1110#4, t, x⟩
  | .unassignedF t x => ⟨0b1111#4, t, x⟩

/-- The word of a well-formed instruction. -/
def encode (i : Instr) : Word := joinFields (instrFields i)

/-! ## The serial form of a program image -/

/-- Why the host refuses a line of a program image (R74). -/
inductive ImageError where
  /-- The line is not exactly 36 characters long. -/
  | notThirtySixCharacters
  /-- The line holds a character other than `0` and `1`. -/
  | notBinary
  deriving DecidableEq, Repr

/-- The bit a character of a line stands for (R73). -/
def bitOfChar (c : Char) : Option Bool :=
  if c = '0' then some false else if c = '1' then some true else none

/-- The value of a line read first character first, the most significant bit first (R73). -/
def valueOfLine : Nat → List Char → Option Nat
  | acc, [] => some acc
  | acc, c :: cs =>
    match bitOfChar c with
    | some b => valueOfLine (2 * acc + b.toNat) cs
    | none => none

/-- One line of a program image: 36 characters `0` or `1`, the first of them bit 35; any other line is refused by
name (R73, R74). Assumption log 13. -/
def parseLine (line : List Char) : Except ImageError Word :=
  if line.length ≠ 36 then .error .notThirtySixCharacters
  else
    match valueOfLine 0 line with
    | some n => .ok (BitVec.ofNat 36 n)
    | none => .error .notBinary

/-- The line of a word (R73). -/
def serialise (w : Word) : List Char :=
  (List.range 36).map fun k => if w.getMsbD k then '1' else '0'

/-- A whole image: line k is program word k; one refused line refuses the image (R73, R74). -/
def parseImage : List (List Char) → Except ImageError (List Word)
  | [] => .ok []
  | line :: rest =>
    match parseLine line with
    | .error e => .error e
    | .ok w =>
      match parseImage rest with
      | .error e => .error e
      | .ok ws => .ok (w :: ws)

/-! ## The host's numbering of a table row -/

/-- The 36-bit word whose bits are `w`, of which the first `nbits` are given; none where it has more than 36 bits,
which no program word has (R74). Assumption log 4. -/
def tableWord (nbits w : Nat) : Option Word :=
  if w % 2 ^ nbits < 2 ^ 36 then some (BitVec.ofNat 36 (w % 2 ^ nbits)) else none

/-- What the decoder reads from that word. -/
def decodeTableWord (nbits w : Nat) : Option Instr := (tableWord nbits w).map decode

end Sys2Proof
end

