-- ==== Sys2Proof/Config.lean ====
section
/-! DEFINITION. The parameters the spec leaves to the implementer, and their defaults (R9). The core has no other. -/

namespace Sys2Proof

/-- `UNASSIGNED_OPCODE_POLICY` (R9, R68): what opcodes 0110 to 1111 do. -/
inductive UnassignedOpcodePolicy where
  /-- The word faults with IllegalOpcode (R127). -/
  | illegal
  /-- The word executes exactly as LOOP (R127). -/
  | asLoop
  deriving DecidableEq, Repr

/-- The policy in force where the host fixes no other: `Illegal` "(the default)" (R9). -/
def Config.defaultPolicy : UnassignedOpcodePolicy := .illegal

end Sys2Proof
end

