-- ==== Sys2Proof/Machine/State.lean ====
section
/-! DEFINITION. The whole architectural state (R33), its values at reset (R34), and the reasons a step can stop. -/

namespace Sys2Proof.Machine

/-- The data memory DM: the values of slots 0, 1, 2, … in order (R30, R41). Its length is part of the state, an
index at or past it is a slot that does not exist, and equal memories are equal lists. Assumption log 2. -/
abbrev Memory := List Value

/-- No more cells than the 32766 slots that an operand can name (R8, R40). -/
abbrev Memory.wf (m : Memory) : Prop := m.length ≤ 32766

/-- A fault's cause with the information recorded for it alone (R141). `operand` is the 16-bit field value, `slot`
the slot index and `length` the data memory's length when the access was tried. -/
inductive FaultCause where
  | dataReadOutOfBounds (operand : Field) (slot length : Nat)
  | dataWriteOutOfBounds (operand : Field) (slot length : Nat)
  | divideByZero (dividend : Value)
  | illegalDestination (operand : Field)
  | illegalOpcode (opcode : Opcode)
  deriving DecidableEq, Repr

/-- The record of a fault: its cause, and what every info record also holds, the index of the faulting word and the
word itself (R141). -/
structure FaultRecord where
  cause : FaultCause
  pc : Nat
  word : Word
  deriving DecidableEq, Repr

/-- ST, the run status (R27). -/
inductive RunStatus where
  | running
  | halted
  | faulted (record : FaultRecord)
  deriving DecidableEq, Repr

/-- The architectural state `(AC, ECX, PC, IR, DM, ST)` and the two parameters of the step, PROG and
UNASSIGNED_OPCODE_POLICY (R33), which no step changes. Assumption log 3. -/
structure State where
  /-- AC, the accumulator (R21). -/
  ac : Value
  /-- ECX, the loop counter (R22). -/
  ecx : Value
  /-- PC, an instruction index that never wraps (R24). -/
  pc : Nat
  /-- IR, the word being executed (R26). -/
  ir : Word
  /-- DM, the data memory (R30). -/
  dm : Memory
  /-- ST, the run status (R27). -/
  st : RunStatus
  /-- PROG, the program memory (R31). -/
  prog : List Word
  /-- UNASSIGNED_OPCODE_POLICY (R9). -/
  policy : UnassignedOpcodePolicy
  deriving DecidableEq, Repr

/-- The machine right after reset (R160, R34), with no program loaded and the default policy (R9).
Assumption log 3. -/
def State.reset : State :=
  { ac := 0, ecx := 0, pc := 0, ir := 0, dm := [], st := .running, prog := [], policy := Config.defaultPolicy }

/-- Why `step` answers no next state. The core's own faults are NOT here: they are the state `Faulted` of ST, which
a step enters as a next state (R143). Assumption log 5. -/
inductive Fault where
  /-- Raised by `step` alone, when ST is already `Halted`: "no step is defined" (R27, R120). Safe: nothing happens
  on the hardware either. -/
  | runHalted
  /-- Raised by `step` alone, when ST is already `Faulted` (R27, R144). Safe: nothing happens on the hardware
  either. -/
  | runFaulted
  deriving DecidableEq, Repr

/-- Refusals. -/
inductive Refusal where
  /-- Raised by an arm of `exec` whose instruction has no meaning yet; no arm does. Safe: the model stops. -/
  | notModelled (mnemonic : String)
  deriving DecidableEq, Repr

end Sys2Proof.Machine
end

