-- ==== Sys2Proof/Machine/Ops.lean ====
section
/-! DEFINITION. The named operations over registers, memory, program memory and run status: the primitives of R11,
fault entry (R143), the halt (R121), and the two forms of reset (R160). -/

namespace Sys2Proof.Machine

/-! ## Registers -/

/-- Read AC or ECX (R11, R21, R22). -/
def readReg (r : DataReg) (s : State) : Value :=
  match r with
  | .ac => s.ac
  | .ecx => s.ecx

/-- Write AC or ECX (R11, R21, R22). -/
def writeReg (r : DataReg) (x : Value) (s : State) : State :=
  match r with
  | .ac => { s with ac := x }
  | .ecx => { s with ecx := x }

/-- The sequential advance `PC <- PC + 1` (R123). -/
def advancePc (s : State) : State := { s with pc := s.pc + 1 }

/-- The redirect `PC <- zext(t)` (R124). -/
def redirectPc (t : Field) (s : State) : State := { s with pc := t.toNat }

/-! ## Data memory -/

/-- `MemRead(i)` (R42). The recorded operand is the storage address `32768 + i`, which is the operand field that
named the slot (R62). -/
def memRead (m : Memory) (slot : Nat) : Except FaultCause Value :=
  match m[slot]? with
  | some v => .ok v
  | none => .error (.dataReadOutOfBounds (operandCode (.var slot)) slot m.length)

/-- `MemWrite(i, x)`: overwrite, append at the length, or fault (R43). -/
def memWrite (m : Memory) (slot : Nat) (x : Value) : Except FaultCause Memory :=
  if slot < m.length then .ok (m.set slot x)
  else if slot = m.length then .ok (m ++ [x])
  else .error (.dataWriteOutOfBounds (operandCode (.var slot)) slot m.length)

/-! ## Faults -/

/-- The cause codes (R141). Assumption log 11. -/
def faultCode : FaultCause → Nat
  | .dataReadOutOfBounds _ _ _ => 1
  | .dataWriteOutOfBounds _ _ _ => 2
  | .divideByZero _ => 3
  | .illegalDestination _ => 4
  | .illegalOpcode _ => 5

/-- The storage address that an out-of-bounds fault reports (R42, R43). -/
def faultAddress : FaultCause → Option Nat
  | .dataReadOutOfBounds _ slot _ => some (32768 + slot)
  | .dataWriteOutOfBounds _ slot _ => some (32768 + slot)
  | .divideByZero _ => none
  | .illegalDestination _ => none
  | .illegalOpcode _ => none

/-- Fault entry: `ST <- Faulted(code(F), info)` and no other change; PC points at the faulting word, which IR
holds (R143). There is no return from it (R145). Assumption log 5. -/
def raiseFault (c : FaultCause) (s : State) : State :=
  { s with st := .faulted { cause := c, pc := s.pc, word := s.ir } }

/-- The end of a data instruction begun in state `s`: where nothing was raised, advance the PC of the written state
(R123); where a fault was raised, enter it from `s`, with nothing written (R143). -/
def settle (s : State) (r : Except FaultCause State) : Host.Outcome State Fault Refusal :=
  .next (match r with
    | .ok t => advancePc t
    | .error c => raiseFault c s)

/-! ## Fetch and halt -/

/-- The program word at the current PC; none where `PC ≥ N` (R120, R121). -/
def fetchWord (s : State) : Option Word := s.prog[s.pc]?

/-- `IR <- PROG[PC]` (R120). -/
def loadIr (w : Word) (s : State) : State := { s with ir := w }

/-- `ST <- Halted`, and nothing else (R121). -/
def haltRun (s : State) : State := { s with st := .halted }

/-! ## Reset and program memory -/

/-- Reset with program `prog` and policy `policy` in place (R160, R162). -/
def resetWith (prog : List Word) (policy : UnassignedOpcodePolicy) : State :=
  { State.reset with prog := prog, policy := policy }

/-- Reset of a machine in any state: PROG and the policy do not change (R160). -/
def resetRun (s : State) : State := resetWith s.prog s.policy

/-- The image with word `w` at index `k`; indices that the image lacked before `k` hold zero words, which the next
fetch does not reach. Assumption log 4. -/
def placeWord : List Word → Nat → Word → List Word
  | [], 0, w => [w]
  | _ :: ws, 0, w => w :: ws
  | [], k + 1, w => 0 :: placeWord [] k w
  | v :: ws, k + 1, w => v :: placeWord ws k w

end Sys2Proof.Machine
end

