-- ==== Sys2Proof/Machine/Operands.lean ====
section
/-! DEFINITION. The operand access routines that every data instruction goes through (R45, R46), and the
read-compute-write routine of the arithmetic instructions (R100). -/

namespace Sys2Proof.Machine

/-- `ReadOperand(v)` on a classified operand (R45). It changes no state. -/
def readOperand (o : Operand) (s : State) : Except FaultCause Value :=
  match o with
  | .lit c => .ok (c : Value)
  | .var i => memRead s.dm i
  | .reg r => .ok (readReg r s)

/-- `WriteOperand(v, x)` on a classified operand (R46). -/
def writeOperand (o : Operand) (x : Value) (s : State) : Except FaultCause State :=
  match o with
  | .lit c => .error (.illegalDestination (operandCode (.lit c)))
  | .var i =>
    match memWrite s.dm i x with
    | .ok m => .ok { s with dm := m }
    | .error c => .error c
  | .reg r => .ok (writeReg r x s)

/-- MOV's reads and write, in their order (R90). -/
def move (dst src : Operand) (s : State) : Except FaultCause State :=
  match readOperand src s with
  | .error c => .error c
  | .ok x => writeOperand dst x s

/-- `ALU(op, d, s)`: first read, second read, computation, write (R100). -/
def alu (op : Value → Value → Except FaultCause Value) (dst src : Operand) (s : State) :
    Except FaultCause State :=
  match readOperand dst s with
  | .error c => .error c
  | .ok a =>
    match readOperand src s with
    | .error c => .error c
    | .ok b =>
      match op a b with
      | .error c => .error c
      | .ok x => writeOperand dst x s

end Sys2Proof.Machine
end

