-- ==== Sys2Proof/Machine/Arithmetic.lean ====
section
/-! DEFINITION. The arithmetic family: ADD, SUB, MUL, DIV, exact on the rationals (R100 to R106). -/

namespace Sys2Proof.Machine

/-- `a + b` (R101). -/
def addOp (a b : Value) : Except FaultCause Value := .ok (a + b)

/-- `a − b`, negative where `b > a` (R102). -/
def subOp (a b : Value) : Except FaultCause Value := .ok (a - b)

/-- `a × b` (R103). -/
def mulOp (a b : Value) : Except FaultCause Value := .ok (a * b)

/-- `op_div`: DivideByZero for a zero divisor, else the exact quotient (R104). -/
def divOp (a b : Value) : Except FaultCause Value :=
  if b = 0 then .error (.divideByZero a) else .ok (a / b)

/-- ADD (R101). -/
def execAdd (dst src : Operand) (s : State) : Host.Outcome State Fault Refusal :=
  settle s (alu addOp dst src s)

/-- SUB (R102). -/
def execSub (dst src : Operand) (s : State) : Host.Outcome State Fault Refusal :=
  settle s (alu subOp dst src s)

/-- MUL (R103). -/
def execMul (dst src : Operand) (s : State) : Host.Outcome State Fault Refusal :=
  settle s (alu mulOp dst src s)

/-- DIV (R104). -/
def execDiv (dst src : Operand) (s : State) : Host.Outcome State Fault Refusal :=
  settle s (alu divOp dst src s)

end Sys2Proof.Machine
end

