-- ==== Sys2Proof/Machine/Flags.lean ====
section
/-! DEFINITION. The core has no flags, condition codes or predicates (R28). Its only condition is LOOP's test of ECX. -/

namespace Sys2Proof.Machine

/-- LOOP redirects iff `ECX > 0`, on the value ECX holds when LOOP executes (R124, R126, decision D3; conflict C1). -/
def loopRedirects (s : State) : Bool := decide (0 < readReg .ecx s)

end Sys2Proof.Machine
end

