-- ==== Sys2Proof/Machine/Control.lean ====
section
/-! DEFINITION. The control family: LOOP (R124) and the unassigned opcodes 0110 to 1111 (R127). -/

namespace Sys2Proof.Machine

/-- The state after `LOOP(t)`: only PC is written (R124). -/
def loopNext (target : Field) (s : State) : State :=
  if loopRedirects s then redirectPc target s else advancePc s

/-- `Unassigned(opcode, o1)`: the policy decides (R127). -/
def unassigned (opcode : Opcode) (target : Field) (s : State) : State :=
  match s.policy with
  | .illegal => raiseFault (.illegalOpcode opcode) s
  | .asLoop => loopNext target s

/-- LOOP (R124); bits 15:0 have no effect (R69). -/
def execLoop (target _ignored : Field) (s : State) : Host.Outcome State Fault Refusal :=
  .next (loopNext target s)

/-- Opcode 0110 (R127). -/
def execUnassigned6 (target _ignored : Field) (s : State) : Host.Outcome State Fault Refusal :=
  .next (unassigned 0b0110#4 target s)

/-- Opcode 0111 (R127). -/
def execUnassigned7 (target _ignored : Field) (s : State) : Host.Outcome State Fault Refusal :=
  .next (unassigned 0b0111#4 target s)

/-- Opcode 1000 (R127). -/
def execUnassigned8 (target _ignored : Field) (s : State) : Host.Outcome State Fault Refusal :=
  .next (unassigned 0b1000#4 target s)

/-- Opcode 1001 (R127). -/
def execUnassigned9 (target _ignored : Field) (s : State) : Host.Outcome State Fault Refusal :=
  .next (unassigned 0b1001#4 target s)

/-- Opcode 1010 (R127). -/
def execUnassignedA (target _ignored : Field) (s : State) : Host.Outcome State Fault Refusal :=
  .next (unassigned 0b1010#4 target s)

/-- Opcode 1011 (R127). -/
def execUnassignedB (target _ignored : Field) (s : State) : Host.Outcome State Fault Refusal :=
  .next (unassigned 0b1011#4 target s)

/-- Opcode 1100 (R127). -/
def execUnassignedC (target _ignored : Field) (s : State) : Host.Outcome State Fault Refusal :=
  .next (unassigned 0b1100#4 target s)

/-- Opcode 1101 (R127). -/
def execUnassignedD (target _ignored : Field) (s : State) : Host.Outcome State Fault Refusal :=
  .next (unassigned 0b1101#4 target s)

/-- Opcode 1110 (R127). -/
def execUnassignedE (target _ignored : Field) (s : State) : Host.Outcome State Fault Refusal :=
  .next (unassigned 0b1110#4 target s)

/-- Opcode 1111 (R127). -/
def execUnassignedF (target _ignored : Field) (s : State) : Host.Outcome State Fault Refusal :=
  .next (unassigned 0b1111#4 target s)

end Sys2Proof.Machine
end

