-- ==== Sys2Proof/Machine/DataMovement.lean ====
section
/-! DEFINITION. The data-movement family: MOV (R90). -/

namespace Sys2Proof.Machine

/-- MOV: `WriteOperand(d, ReadOperand(s))`, then the PC (R90). -/
def execMov (dst src : Operand) (s : State) : Host.Outcome State Fault Refusal :=
  settle s (move dst src s)

end Sys2Proof.Machine
end

