-- ==== Sys2Proof/Machine/Dispatch.lean ====
section
/-! DEFINITION. `Execute`: one arm per instruction (R122). -/

namespace Sys2Proof.Machine

/-- `Execute(opcode, o1, o2)` (R122), on the state whose IR already holds the word. It does not look at ST, which
`step` has tested (R120). Assumption log 7. -/
def exec (i : Instr) (s : State) : Host.Outcome State Fault Refusal :=
  match i with
  | .mov dst src => Sys2Proof.Machine.execMov dst src s
  | .add dst src => Sys2Proof.Machine.execAdd dst src s
  | .sub dst src => Sys2Proof.Machine.execSub dst src s
  | .mul dst src => Sys2Proof.Machine.execMul dst src s
  | .div dst src => Sys2Proof.Machine.execDiv dst src s
  | .loop target ignored => Sys2Proof.Machine.execLoop target ignored s
  | .unassigned6 target ignored => Sys2Proof.Machine.execUnassigned6 target ignored s
  | .unassigned7 target ignored => Sys2Proof.Machine.execUnassigned7 target ignored s
  | .unassigned8 target ignored => Sys2Proof.Machine.execUnassigned8 target ignored s
  | .unassigned9 target ignored => Sys2Proof.Machine.execUnassigned9 target ignored s
  | .unassignedA target ignored => Sys2Proof.Machine.execUnassignedA target ignored s
  | .unassignedB target ignored => Sys2Proof.Machine.execUnassignedB target ignored s
  | .unassignedC target ignored => Sys2Proof.Machine.execUnassignedC target ignored s
  | .unassignedD target ignored => Sys2Proof.Machine.execUnassignedD target ignored s
  | .unassignedE target ignored => Sys2Proof.Machine.execUnassignedE target ignored s
  | .unassignedF target ignored => Sys2Proof.Machine.execUnassignedF target ignored s

end Sys2Proof.Machine
end

