-- ==== Sys2Proof/Machine/Step.lean ====
section
/-! DEFINITION. One architectural step (R12, R120), and the placing of a word where the next step fetches it. -/

namespace Sys2Proof.Machine

/-- One step: while ST is `Running`, fetch and execute, or halt where `PC ≥ N` (R120, R121). No step is defined
from `Halted` or `Faulted` (R27). -/
def step (s : State) : Host.Outcome State Fault Refusal :=
  match s.st with
  | .running =>
    match fetchWord s with
    | some w => exec (decode w) (loadIr w s)
    | none => .next (haltRun s)
  | .halted => .fault .runHalted
  | .faulted _ => .fault .runFaulted

/-- `s` with the word of table bits `w` at program index PC and ST `Running`, which a fetch needs (R120); unchanged
where `w` is no 36-bit word. Assumption log 4. -/
def State.withFetchWord (s : State) (nbits w : Nat) : State :=
  match tableWord nbits w with
  | some v => { s with prog := placeWord s.prog s.pc v, st := .running }
  | none => s

end Sys2Proof.Machine
end

