-- ==== Sys2Proof/Machine/Assembler.lean ====
section
/-! DEFINITION. The toolchain's assembler, from lines of text to program words (R75 to R85). The core does not depend
on it (R5). Text is a list of characters. Conventions the rules leave open: assumption log 8. -/

namespace Sys2Proof.Machine.Assembler

/-- A token or a line of text. -/
abbrev Text := List Char

/-- The fatal assembler errors (R84). -/
inductive AsmError where
  | unknownOperator
  | unresolvableOperand
  | operandCount
  | noActiveLabel
  | variableSpaceExhausted
  | literalOverflow
  deriving DecidableEq, Repr

/-- An assembly line: a label marker, or a mnemonic with its operand tokens (R75). -/
inductive AsmLine where
  | label
  | instr (mnemonic : Text) (operands : List Text)
  deriving DecidableEq, Repr

/-! ## Reading a line (R75) -/

/-- `[A-Za-z_]`. -/
def isLabelStart (c : Char) : Bool := c.isAlpha || c == '_'

/-- `[A-Za-z0-9_]`. -/
def isLabelChar (c : Char) : Bool := c.isAlphanum || c == '_'

/-- `[A-Za-z_][A-Za-z0-9_]*:` alone on the line. -/
def isLabelMarker (line : Text) : Bool :=
  match line.reverse with
  | ':' :: eman =>
    match eman.reverse with
    | c :: cs => isLabelStart c && cs.all isLabelChar
    | [] => false
  | _ => false

/-- The text without spaces at its ends. -/
def trim (t : Text) : Text :=
  ((t.dropWhile (· == ' ')).reverse.dropWhile (· == ' ')).reverse

/-- The tokens between commas, each trimmed: a list of at least one token. -/
def splitAtCommas : Text → Text → List Text
  | acc, [] => [trim acc.reverse]
  | acc, c :: cs => if c == ',' then trim acc.reverse :: splitAtCommas [] cs else splitAtCommas (c :: acc) cs

/-- The operand tokens of what follows a mnemonic: none where nothing follows. -/
def operandTokens (rest : Text) : List Text :=
  if (trim rest).isEmpty then [] else splitAtCommas [] rest

/-- A line of text as an assembly line: a label marker, or the mnemonic up to the first space and the operand
tokens after it, "separated by a comma and optional spaces" (R75). -/
def parseAsmLine (text : Text) : AsmLine :=
  let line := trim text
  if isLabelMarker line then .label
  else .instr (line.takeWhile (· != ' ')) (operandTokens (line.dropWhile (· != ' ')))

/-! ## Operand tokens (R76, R77, R78) -/

/-- `[0-9]+`. -/
def isDecimal (t : Text) : Bool := !t.isEmpty && t.all Char.isDigit

/-- The number that decimal digits write. -/
def decimalValue (t : Text) : Nat := t.foldl (fun n c => 10 * n + (c.toNat - '0'.toNat)) 0

/-- `[a-z][a-z0-9]*`. -/
def isVariableName : Text → Bool
  | c :: cs => c.isLower && cs.all fun d => d.isLower || d.isDigit
  | [] => false

/-- The register mnemonics `AC` and `ECX` (R76). -/
def registerNamed (t : Text) : Option DataReg :=
  if t = ['A', 'C'] then some .ac else if t = ['E', 'C', 'X'] then some .ecx else none

/-- The symbol table: the variable names in the order of their allocation. The k-th name has storage address
`32768 + k`, so that the first gets 32768 and each new one the largest so far plus one (R78). -/
abbrev Symbols := List Text

/-- The slot of a variable, with the table that holds it: its own slot where it is known, else the next one, of
which there are 32766 (R78, R84). -/
def allocate (symbols : Symbols) (name : Text) : Except AsmError (Nat × Symbols) :=
  match symbols.idxOf? name with
  | some k => .ok (k, symbols)
  | none =>
    if symbols.length ≤ 32765 then .ok (symbols.length, symbols ++ [name])
    else .error .variableSpaceExhausted

/-- The operand a token stands for, with the table after it (R77, R78, R82, R83). -/
def resolveOperand (symbols : Symbols) (t : Text) : Except AsmError (Operand × Symbols) :=
  if isDecimal t then
    if decimalValue t ≤ 32767 then .ok (.lit (decimalValue t), symbols) else .error .literalOverflow
  else
    match registerNamed t with
    | some r => .ok (.reg r, symbols)
    | none =>
      if isVariableName t then
        match allocate symbols t with
        | .ok (k, symbols') => .ok (.var k, symbols')
        | .error e => .error e
      else .error .unresolvableOperand

/-! ## Lines to instructions (R79 to R82) -/

/-- The mnemonics (R75, R84). -/
inductive Mnemonic where
  | mov | add | sub | mul | div | loop
  deriving DecidableEq, Repr

/-- The mnemonic a token spells; "Mnemonics are upper case" (R75). -/
def mnemonicNamed (t : Text) : Option Mnemonic :=
  if t = ['M', 'O', 'V'] then some .mov
  else if t = ['A', 'D', 'D'] then some .add
  else if t = ['S', 'U', 'B'] then some .sub
  else if t = ['M', 'U', 'L'] then some .mul
  else if t = ['D', 'I', 'V'] then some .div
  else if t = ['L', 'O', 'O', 'P'] then some .loop
  else none

/-- What the assembler carries from line to line: the symbol table, the active loop target (R80), and the
instructions emitted so far, in order. -/
structure AsmState where
  symbols : Symbols
  target : Option Nat
  emitted : List Instr
  deriving DecidableEq, Repr

/-- Nothing read yet: "an instruction counter that starts at 0" and no label (R79, R84). -/
def AsmState.start : AsmState := { symbols := [], target := none, emitted := [] }

/-- The instruction counter: incremented for emitted instructions only (R79). -/
def counter (a : AsmState) : Nat := a.emitted.length

/-- Emit one instruction, with the symbol table after its operands. -/
def emit (a : AsmState) (symbols : Symbols) (i : Instr) : AsmState :=
  { a with symbols := symbols, emitted := a.emitted ++ [i] }

/-- `LOOP`: the active loop target in operand1 and zeros in operand2 (R81, R83). -/
def assembleLoop (a : AsmState) (operands : List Text) : Except AsmError AsmState :=
  match operands with
  | [] =>
    match a.target with
    | none => .error .noActiveLabel
    | some t =>
      if t ≤ 65535 then .ok (emit a a.symbols (.loop (BitVec.ofNat 16 t) 0)) else .error .literalOverflow
  | _ :: _ => .error .operandCount

/-- A data instruction: exactly two operands, operand1 resolved before operand2 (R78, R82). -/
def assembleData (make : Operand → Operand → Instr) (a : AsmState) (operands : List Text) :
    Except AsmError AsmState :=
  match operands with
  | [t1, t2] =>
    match resolveOperand a.symbols t1 with
    | .error e => .error e
    | .ok (o1, symbols1) =>
      match resolveOperand symbols1 t2 with
      | .error e => .error e
      | .ok (o2, symbols2) => .ok (emit a symbols2 (make o1 o2))
  | _ => .error .operandCount

/-- One line (R79 to R82): a label marker sets the active target to the counter and emits nothing. -/
def assembleLine (a : AsmState) : AsmLine → Except AsmError AsmState
  | .label => .ok { a with target := some (counter a) }
  | .instr m operands =>
    match mnemonicNamed m with
    | none => .error .unknownOperator
    | some .mov => assembleData .mov a operands
    | some .add => assembleData .add a operands
    | some .sub => assembleData .sub a operands
    | some .mul => assembleData .mul a operands
    | some .div => assembleData .div a operands
    | some .loop => assembleLoop a operands

/-- The lines in order; the first error aborts (R84). -/
def assembleFrom : AsmState → List AsmLine → Except AsmError AsmState
  | a, [] => .ok a
  | a, l :: ls =>
    match assembleLine a l with
    | .error e => .error e
    | .ok b => assembleFrom b ls

/-- The program image of a text, or the error that aborted it (R82, R84). -/
def assemble (text : List Text) : Except AsmError (List Word) :=
  match assembleFrom AsmState.start (text.map parseAsmLine) with
  | .ok a => .ok (a.emitted.map encode)
  | .error e => .error e

end Sys2Proof.Machine.Assembler
end

