-- ==== Sys2Proof/Machine/HostInterface.lean ====
section
/-! DEFINITION. What the host may do: load an image and reset (R162, R165), and read the state back once the run has
ended (R166, R167). None of it is a step of the core. -/

namespace Sys2Proof.Machine

/-- Load a program image and a policy, then reset: the state a run starts from, or the image's refusal, in which
case no run starts (R74, R160, R162, R165). -/
def loadAndReset (image : List (List Char)) (policy : UnassignedOpcodePolicy) : Except ImageError State :=
  match parseImage image with
  | .ok ws => .ok (resetWith ws policy)
  | .error e => .error e

/-- What the host reads back: "ST with cause and info; AC; ECX; PC; `len(DM)` and every DM cell" (R165). -/
structure ReadBack where
  st : RunStatus
  ac : Value
  ecx : Value
  pc : Nat
  dmLength : Nat
  dm : List Value
  deriving DecidableEq, Repr

/-- The read-back of the final state; none while ST is `Running`, when the host reads nothing (R166, R167). Assumption
log 12. -/
def readBack (s : State) : Option ReadBack :=
  match s.st with
  | .running => none
  | .halted => some { st := s.st, ac := s.ac, ecx := s.ecx, pc := s.pc, dmLength := s.dm.length, dm := s.dm }
  | .faulted _ => some { st := s.st, ac := s.ac, ecx := s.ecx, pc := s.pc, dmLength := s.dm.length, dm := s.dm }

end Sys2Proof.Machine
end

