-- ==== Sys2Proof/Safety.lean ====
section
/-! DEFINITION. Runs and how they end (R164), the invariant of the state, the programs that keep the initialisation
order (R170), and what a line of assembly denotes (R86): the terms that the statements use. -/

namespace Sys2Proof.Machine

/-- `k` steps, stopping where a step answers no next state. -/
def runSteps : Nat → State → Host.Outcome State Fault Refusal
  | 0, s => .next s
  | k + 1, s =>
    match step s with
    | .next t => runSteps k t
    | .fault r => .fault r
    | .refused r => .refused r

/-- The run from `s` ends `Halted`, the normal completion (R164). -/
def EndsHalted (s : State) : Prop := ∃ k t, runSteps k s = .next t ∧ t.st = .halted

/-- The run from `s` ends `Faulted`, the error completion (R164). -/
def EndsFaulted (s : State) : Prop := ∃ k t record, runSteps k s = .next t ∧ t.st = .faulted record

/-- The run from `s` has no end: after every number of steps it is still running (R164, R171). -/
def NeverEnds (s : State) : Prop := ∀ k, ∃ t, runSteps k s = .next t ∧ t.st = .running

/-- What the record of a fault says is true of the state it left, which is the state before the faulting
instruction but for ST (R141, R143). -/
def CauseSound (s : State) : FaultCause → Prop
  | .dataReadOutOfBounds operand slot length =>
    operand.toNat = 32768 + slot ∧ slot ≤ 32765 ∧ length = s.dm.length ∧ s.dm.length ≤ slot ∧
      (operand = (splitFields s.ir).operand1 ∨ operand = (splitFields s.ir).operand2)
  | .dataWriteOutOfBounds operand slot length =>
    operand.toNat = 32768 + slot ∧ slot ≤ 32765 ∧ length = s.dm.length ∧ s.dm.length < slot ∧
      operand = (splitFields s.ir).operand1
  | .divideByZero dividend =>
    ∃ dst src, decode s.ir = .div dst src ∧ readOperand dst s = .ok dividend ∧ readOperand src s = .ok 0
  | .illegalDestination operand =>
    operand.toNat ≤ 32767 ∧ operand = (splitFields s.ir).operand1
  | .illegalOpcode opcode =>
    s.policy = .illegal ∧ 6 ≤ opcode.toNat ∧ opcode = (splitFields s.ir).opcode

/-- The invariant that every step keeps. -/
structure Inv (s : State) : Prop where
  /-- The data memory keeps within the slots that exist (R40). -/
  memory : Memory.wf s.dm
  /-- PC "always lies in 0 to max(N, 65535)" (R24). -/
  pcRange : s.pc ≤ max s.prog.length 65535
  /-- A halted run's PC is at or past the program's end (R121, R164). -/
  halted : s.st = .halted → s.prog.length ≤ s.pc
  /-- A faulted run's PC points at the faulting word, which IR and the record hold, and the record is true (R141,
  R143). -/
  faulted : ∀ record, s.st = .faulted record →
    record.pc = s.pc ∧ record.word = s.ir ∧ s.prog[s.pc]? = some s.ir ∧ CauseSound s record.cause

/-- The raw instruction index in operand1 of LOOP and of every unassigned word (R66, R127). -/
def jumpTarget : Instr → Option Field
  | .mov _ _ => none
  | .add _ _ => none
  | .sub _ _ => none
  | .mul _ _ => none
  | .div _ _ => none
  | .loop t _ => some t
  | .unassigned6 t _ => some t
  | .unassigned7 t _ => some t
  | .unassigned8 t _ => some t
  | .unassigned9 t _ => some t
  | .unassignedA t _ => some t
  | .unassignedB t _ => some t
  | .unassignedC t _ => some t
  | .unassignedD t _ => some t
  | .unassignedE t _ => some t
  | .unassignedF t _ => some t

/-- The instruction executes as LOOP under the policy: LOOP itself, and an unassigned opcode under `AsLoop` (R127). -/
def runsAsLoop (policy : UnassignedOpcodePolicy) : Instr → Bool
  | .mov _ _ => false
  | .add _ _ => false
  | .sub _ _ => false
  | .mul _ _ => false
  | .div _ _ => false
  | .loop _ _ => true
  | .unassigned6 _ _ => policy == .asLoop
  | .unassigned7 _ _ => policy == .asLoop
  | .unassigned8 _ _ => policy == .asLoop
  | .unassigned9 _ _ => policy == .asLoop
  | .unassignedA _ _ => policy == .asLoop
  | .unassignedB _ _ => policy == .asLoop
  | .unassignedC _ _ => policy == .asLoop
  | .unassignedD _ _ => policy == .asLoop
  | .unassignedE _ _ => policy == .asLoop
  | .unassignedF _ _ => policy == .asLoop

/-- The destination operand of a data instruction, operand1 (R65). -/
def destination : Instr → Option Operand
  | .mov d _ => some d
  | .add d _ => some d
  | .sub d _ => some d
  | .mul d _ => some d
  | .div d _ => some d
  | .loop _ _ => none
  | .unassigned6 _ _ => none
  | .unassigned7 _ _ => none
  | .unassigned8 _ _ => none
  | .unassigned9 _ _ => none
  | .unassignedA _ _ => none
  | .unassignedB _ _ => none
  | .unassignedC _ _ => none
  | .unassignedD _ _ => none
  | .unassignedE _ _ => none
  | .unassignedF _ _ => none

/-- The cause has its code, and the instruction is one that may raise it in state `s` (R141, R142). -/
def causeBelongsTo (s : State) (i : Instr) : FaultCause → Prop
  | .dataReadOutOfBounds o j n => faultCode (.dataReadOutOfBounds o j n) = 1 ∧ ∃ d, destination i = some d
  | .dataWriteOutOfBounds o j n => faultCode (.dataWriteOutOfBounds o j n) = 2 ∧ ∃ dst src, i = .mov dst src
  | .divideByZero a => faultCode (.divideByZero a) = 3 ∧ ∃ dst src, i = .div dst src
  | .illegalDestination o => faultCode (.illegalDestination o) = 4 ∧ ∃ c, destination i = some (.lit c)
  | .illegalOpcode op => faultCode (.illegalOpcode op) = 5 ∧
    s.policy = .illegal ∧ 6 ≤ op.toNat ∧ op = (instrFields i).opcode ∧ ∃ t, jumpTarget i = some t

/-- A variable operand is one of the first `n` slots; every other operand passes. -/
def operandWithin (n : Nat) : Operand → Bool
  | .lit _ => true
  | .var i => decide (i < n)
  | .reg _ => true

/-- How many slots are written once instruction `k` has run for the first time, `n` of them being written before;
none where it breaks the order of R170: it reads or skips a slot not yet written, or its jump target is forward. An
unassigned word is held to a backward target too, which it has under `AsLoop` (R127). -/
def writtenAfter (k n : Nat) : Instr → Option Nat
  | .mov (.var i) src =>
    if operandWithin n src = true then
      if i < n then some n else if i = n then some (n + 1) else none
    else none
  | .mov (.lit _) src => if operandWithin n src = true then some n else none
  | .mov (.reg _) src => if operandWithin n src = true then some n else none
  | .add d src => if operandWithin n d = true ∧ operandWithin n src = true then some n else none
  | .sub d src => if operandWithin n d = true ∧ operandWithin n src = true then some n else none
  | .mul d src => if operandWithin n d = true ∧ operandWithin n src = true then some n else none
  | .div d src => if operandWithin n d = true ∧ operandWithin n src = true then some n else none
  | .loop t _ => if t.toNat ≤ k then some n else none
  | .unassigned6 t _ => if t.toNat ≤ k then some n else none
  | .unassigned7 t _ => if t.toNat ≤ k then some n else none
  | .unassigned8 t _ => if t.toNat ≤ k then some n else none
  | .unassigned9 t _ => if t.toNat ≤ k then some n else none
  | .unassignedA t _ => if t.toNat ≤ k then some n else none
  | .unassignedB t _ => if t.toNat ≤ k then some n else none
  | .unassignedC t _ => if t.toNat ≤ k then some n else none
  | .unassignedD t _ => if t.toNat ≤ k then some n else none
  | .unassignedE t _ => if t.toNat ≤ k then some n else none
  | .unassignedF t _ => if t.toNat ≤ k then some n else none

/-- Every variable first appears as operand1 of a MOV from an operand already written, slots in order, and every
jump target is backward or its own index (R170), from index `k` on with `n` slots written. -/
def writesInOrder : Nat → Nat → List Instr → Bool
  | _, _, [] => true
  | k, n, i :: rest =>
    match writtenAfter k n i with
    | some n' => writesInOrder (k + 1) n' rest
    | none => false

/-- The run from `s` never faults on a data-memory bound. -/
def NeverOutOfBounds (s : State) : Prop :=
  ∀ k t record, runSteps k s = .next t → t.st = .faulted record →
    (∀ o i n, record.cause ≠ .dataReadOutOfBounds o i n) ∧ (∀ o i n, record.cause ≠ .dataWriteOutOfBounds o i n)

/-! ## What a line of assembly denotes -/

/-- The operand is what the token names, given the table of variable names: a decimal literal's own value, the
register of that mnemonic, or the slot that holds the variable's name (R76 to R78, R82). -/
def tokenDenotes (symbols : Assembler.Symbols) (t : Assembler.Text) : Operand → Prop
  | .lit c => Assembler.isDecimal t = true ∧ Assembler.decimalValue t = c
  | .var k => Assembler.isVariableName t = true ∧ symbols[k]? = some t
  | .reg r => Assembler.registerNamed t = some r

/-- The instruction is what the line says: the operation of its mnemonic, on the operands its two tokens name, or
LOOP with no operand (R75, R86). No line says an unassigned opcode. -/
def lineDenotes (symbols : Assembler.Symbols) (line : Assembler.AsmLine) : Instr → Prop
  | .mov d s => ∃ t1 t2, line = .instr ['M', 'O', 'V'] [t1, t2] ∧ tokenDenotes symbols t1 d ∧ tokenDenotes symbols t2 s
  | .add d s => ∃ t1 t2, line = .instr ['A', 'D', 'D'] [t1, t2] ∧ tokenDenotes symbols t1 d ∧ tokenDenotes symbols t2 s
  | .sub d s => ∃ t1 t2, line = .instr ['S', 'U', 'B'] [t1, t2] ∧ tokenDenotes symbols t1 d ∧ tokenDenotes symbols t2 s
  | .mul d s => ∃ t1 t2, line = .instr ['M', 'U', 'L'] [t1, t2] ∧ tokenDenotes symbols t1 d ∧ tokenDenotes symbols t2 s
  | .div d s => ∃ t1 t2, line = .instr ['D', 'I', 'V'] [t1, t2] ∧ tokenDenotes symbols t1 d ∧ tokenDenotes symbols t2 s
  | .loop _ _ => line = .instr ['L', 'O', 'O', 'P'] []
  | .unassigned6 _ _ => False
  | .unassigned7 _ _ => False
  | .unassigned8 _ _ => False
  | .unassigned9 _ _ => False
  | .unassignedA _ _ => False
  | .unassignedB _ _ => False
  | .unassignedC _ _ => False
  | .unassignedD _ _ => False
  | .unassignedE _ _ => False
  | .unassignedF _ _ => False

/-- How many of the lines emit an instruction: the instruction counter after them (R79). -/
def instructionLines (lines : List Assembler.AsmLine) : Nat := (lines.filter (· ≠ .label)).length

/-- A label marker's position, the number of instruction lines before it, is the target of each LOOP line for which it
is the most recent label marker: the active loop target (R79, R80, R86). -/
def loopsTargetTheLastLabel (lines : List Assembler.AsmLine) (is : List Instr) : Prop :=
  ∀ before between post,
    lines = before ++ .label :: (between ++ .instr ['L', 'O', 'O', 'P'] [] :: post) → .label ∉ between →
    ∃ t x, is[instructionLines (before ++ between)]? = some (.loop t x) ∧ t.toNat = instructionLines before

/-- The error is the one that resolving the token against this table raises (R77, R83, R84). -/
def tokenError (symbols : Assembler.Symbols) (t : Assembler.Text) : Assembler.AsmError → Prop
  | .literalOverflow => Assembler.isDecimal t = true ∧ 32767 < Assembler.decimalValue t
  | .variableSpaceExhausted => Assembler.isVariableName t = true ∧ t ∉ symbols ∧ symbols.length = 32766
  | .unresolvableOperand =>
    Assembler.isDecimal t = false ∧ Assembler.registerNamed t = none ∧ Assembler.isVariableName t = false
  | .unknownOperator => False
  | .operandCount => False
  | .noActiveLabel => False

end Sys2Proof.Machine
end

