-- ==== Sys2Proof/Certificates/Slice0/Obligations.lean ====
section
/-! DEFINITION. The statements for the provers. A docstring names the rule or the decision of the spec it formalises. -/

open Sys2Proof Sys2Proof.Machine

/-! ## Reset, the run, and the host -/

/-- Reset (R160, R34, decision D8), from any state, gives AC, ECX, PC, IR, DM and ST their values and leaves PROG and
the policy alone. The reset state itself has no program and the default policy: the model's choice, log 3. -/
def Obligations.ResetSetsEveryRegisterAndKeepsParameters : Prop :=
  (∀ s : State,
    (resetRun s).ac = 0 ∧ (resetRun s).ecx = 0 ∧ (resetRun s).pc = 0 ∧ (resetRun s).ir = 0 ∧ (resetRun s).dm = [] ∧
      (resetRun s).st = .running ∧ (resetRun s).prog = s.prog ∧ (resetRun s).policy = s.policy) ∧
  State.reset = resetWith [] .illegal

/-- The invariant holds at reset, whatever the program and the policy. -/
def Obligations.InvariantHoldsAtReset : Prop :=
  Inv State.reset ∧ ∀ prog policy, Inv (resetWith prog policy)

/-- Every step keeps the invariant: the data memory within its 32766 slots (R40), PC in 0 to max(N, 65535) (R24,
decision D9), a halted PC at or past N (R121, R164), and a fault's record true of the state it left (R141, R143,
decisions D4 to D7). -/
def Obligations.EveryStepKeepsTheInvariant : Prop :=
  ∀ s t : State, Inv s → step s = .next t → Inv t

/-- A step of a running core whose PC is below N loads IR and executes the decoded word (R120, R122, decision D17). -/
def Obligations.StepRunsTheDecodedInstruction : Prop :=
  ∀ (s : State) (w : Word), s.st = .running → s.prog[s.pc]? = some w →
    step s = exec (decode w) { s with ir := w }

/-- A fetch with `PC ≥ N` halts and changes nothing else: not IR, and not PC (R121, decision D7, conflict C10). -/
def Obligations.FetchPastTheProgramHalts : Prop :=
  ∀ s : State, s.st = .running → s.prog.length ≤ s.pc → step s = .next { s with st := .halted }

/-- No step is defined from `Halted` or `Faulted` (R27, R144, decision D7): the model stops there, under a name of its
own for each (the model's choice, log 5). -/
def Obligations.EndedRunsTakeNoStep : Prop :=
  ∀ s : State, (s.st = .halted → step s = .fault .runHalted) ∧
    (∀ record, s.st = .faulted record → step s = .fault .runFaulted)

/-- A running core always answers a next state, and no step is ever refused: every word runs, halts or faults as the
spec says (R12, R72, decision D17). -/
def Obligations.RunningCoreAlwaysAnswersAState : Prop :=
  (∀ s : State, s.st = .running → ∃ t, step s = .next t) ∧ ∀ (s : State) (r : Refusal), step s ≠ .refused r

/-- A run ends in exactly one of three ways: Halted, Faulted, or no end (R164, decisions D7 and D24). -/
def Obligations.RunEndsInExactlyOneWay : Prop :=
  ∀ s : State, s.st = .running →
    (EndsHalted s ∧ ¬ EndsFaulted s ∧ ¬ NeverEnds s) ∨ (¬ EndsHalted s ∧ EndsFaulted s ∧ ¬ NeverEnds s) ∨
      (¬ EndsHalted s ∧ ¬ EndsFaulted s ∧ NeverEnds s)

/-- No instruction halts the core: a run halts only by running off the end of program memory (R150, R121, decision D21). -/
def Obligations.OnlyRunningOffTheEndHalts : Prop :=
  (∀ (i : Instr) (s t : State), s.st = .running → exec i s = .next t → t.st ≠ .halted) ∧
    ∀ s t : State, step s = .next t → t.st = .halted → s.prog.length ≤ s.pc ∧ t = { s with st := .halted }

/-- However long the run, program memory is what was loaded, so that every index fetches the word it did before
(R54). -/
def Obligations.NoRunWritesProgramMemory : Prop :=
  ∀ (k : Nat) (s t : State), runSteps k s = .next t →
    t.prog = s.prog ∧ ∀ p, fetchWord { t with pc := p } = fetchWord { s with pc := p }

/-- The policy, like the program, is a parameter of the run: no run changes it (R9, R33, decision D4). -/
def Obligations.NoRunChangesThePolicy : Prop :=
  ∀ (k : Nat) (s t : State), runSteps k s = .next t → t.policy = s.policy

/-- The host reads back the final state once the run has ended and nothing while it runs (R165 to R167, decisions D20
and D24). -/
def Obligations.ReadBackIsTheFinalState : Prop :=
  ∀ s : State, (s.st = .running → readBack s = none) ∧
    (s.st ≠ .running → readBack s =
      some { st := s.st, ac := s.ac, ecx := s.ecx, pc := s.pc, dmLength := s.dm.length, dm := s.dm })

/-- The word placed for the next step is the one that step decodes and executes: the model's own placing of a word
(log 4). -/
def Obligations.PlacedWordIsWhatStepRuns : Prop :=
  ∀ (s : State) (nbits w : Nat) (i : Instr), decodeTableWord nbits w = some i →
    ∃ v, tableWord nbits w = some v ∧ decode v = i ∧
      step (s.withFetchWord nbits w) =
        exec i { s with prog := placeWord s.prog s.pc v, st := .running, ir := v }

/-! ## Encoding -/

/-- Decoding the word of a well-formed instruction gives it back (R60 to R67, decision D2). -/
def Obligations.DecodeOfEncodeIsTheInstruction : Prop :=
  ∀ i : Instr, i.wf = true → decode (encode i) = i

/-- Decoding is total on the 2^36 words (R72), and loses no bit of one: each word is the word of the one well-formed
instruction it decodes to. That bits 15:0 of LOOP and of the unassigned words are kept in the instruction, and so come
back, is the model's choice (log 6), not R72's. -/
def Obligations.EveryWordIsTheWordOfItsInstruction : Prop :=
  ∀ w : Word, (decode w).wf = true ∧ encode (decode w) = w

/-- The four disjoint ranges of an operand value, with the operand that `classify` gives each (R62, R64). -/
def Obligations.ClassifyPartitionsOperandValues : Prop :=
  ∀ v : Field,
    (v.toNat ≤ 32767 → classify v = .lit v.toNat) ∧
    (32768 ≤ v.toNat → v.toNat ≤ 65533 → classify v = .var (v.toNat - 32768)) ∧
    (v.toNat = 65534 → classify v = .reg .ac) ∧
    (v.toNat = 65535 → classify v = .reg .ecx)

/-- Opcode bits 35:32 select the instruction, with operand1 from bits 31:16 and operand2 from bits 15:0, classified
for the data instructions and raw for LOOP and the unassigned opcodes (R61, R65 to R68, decisions D2 and D12). -/
def Obligations.OpcodeFieldSelectsTheInstruction : Prop :=
  ∀ (w : Word) (op : Opcode) (a b : Field),
    w.extractLsb' 32 4 = op → w.extractLsb' 16 16 = a → w.extractLsb' 0 16 = b →
    (op = 0b0000#4 → decode w = .mov (classify a) (classify b)) ∧
    (op = 0b0001#4 → decode w = .add (classify a) (classify b)) ∧
    (op = 0b0010#4 → decode w = .sub (classify a) (classify b)) ∧
    (op = 0b0011#4 → decode w = .mul (classify a) (classify b)) ∧
    (op = 0b0100#4 → decode w = .div (classify a) (classify b)) ∧
    (op = 0b0101#4 → decode w = .loop a b) ∧
    (op = 0b0110#4 → decode w = .unassigned6 a b) ∧
    (op = 0b0111#4 → decode w = .unassigned7 a b) ∧
    (op = 0b1000#4 → decode w = .unassigned8 a b) ∧
    (op = 0b1001#4 → decode w = .unassigned9 a b) ∧
    (op = 0b1010#4 → decode w = .unassignedA a b) ∧
    (op = 0b1011#4 → decode w = .unassignedB a b) ∧
    (op = 0b1100#4 → decode w = .unassignedC a b) ∧
    (op = 0b1101#4 → decode w = .unassignedD a b) ∧
    (op = 0b1110#4 → decode w = .unassignedE a b) ∧
    (op = 0b1111#4 → decode w = .unassignedF a b)

/-- Words written out from the spec's encodings (the rules' own examples) decode to the instructions they stand for. -/
def Obligations.SpecWordsDecodeToTheirInstructions : Prop :=
  decode 0x080000011#36 = .mov (.var 0) (.lit 17) ∧
  decode 0x180028000#36 = .add (.var 2) (.var 0) ∧
  decode 0x280008001#36 = .sub (.var 0) (.var 1) ∧
  decode 0x3FFFE0013#36 = .mul (.reg .ac) (.lit 19) ∧
  decode 0x4FFFE0002#36 = .div (.reg .ac) (.lit 2) ∧
  decode 0x500050000#36 = .loop 5#16 0#16 ∧
  decode 0xFFFFFFFFF#36 = .unassignedF 0xFFFF#16 0xFFFF#16

/-- A line of a program image is 36 characters, the first of them bit 35, and it is the serial form of the one word
it is read as (R73, decisions D2 and D16). -/
def Obligations.SerialFormAndWordsCorrespond : Prop :=
  (∀ w : Word, parseLine (serialise w) = .ok w) ∧
    (∀ (line : List Char) (w : Word), parseLine line = .ok w → serialise w = line) ∧
    ∀ (w : Word) (k : Nat), k < 36 → (serialise w)[k]? = some (if w.getLsbD (35 - k) then '1' else '0')

/-- An image is accepted exactly when each line is 36 characters of `0` and `1`; its line k is then program word k of
the state that the run starts from (R73, R74, R162, decision D16). -/
def Obligations.ImageIsLoadedOrRefused : Prop :=
  ∀ (image : List (List Char)) (policy : UnassignedOpcodePolicy),
    ((∃ s, loadAndReset image policy = .ok s) ↔
      ∀ line ∈ image, line.length = 36 ∧ ∀ c ∈ line, c = '0' ∨ c = '1') ∧
    ∀ s, loadAndReset image policy = .ok s →
      s = resetWith s.prog policy ∧ s.prog.length = image.length ∧
        ∀ (k : Nat) (line : List Char), image[k]? = some line → ∃ w, s.prog[k]? = some w ∧ parseLine line = .ok w

/-! ## Operands and data memory -/

/-- What an operand field denotes as a source: the literal, the data-memory slot's value, AC, or ECX (R45). -/
def Obligations.ReadOperandResolvesTheFourRanges : Prop :=
  ∀ (v : Field) (s : State),
    (v.toNat ≤ 32767 → readOperand (classify v) s = .ok (v.toNat : Value)) ∧
    (∀ i, v.toNat = 32768 + i → i ≤ 32765 → readOperand (classify v) s = memRead s.dm i) ∧
    (v.toNat = 65534 → readOperand (classify v) s = .ok s.ac) ∧
    (v.toNat = 65535 → readOperand (classify v) s = .ok s.ecx)

/-- A storage address 32768 to 65533 maps directly to the slot `address − 32768`: wherever that cell exists, the operand
reads and writes it, whatever else the state holds (R51). -/
def Obligations.StorageAddressMapsToItsSlot : Prop :=
  ∀ (v : Field) (i : Nat) (s : State) (x y : Value), v.toNat = 32768 + i → i ≤ 32765 → s.dm[i]? = some x →
    readOperand (classify v) s = .ok x ∧
      writeOperand (classify v) y s = .ok { s with dm := s.dm.set i y }

/-- MemRead answers the cell below the length and faults at or past it; MemWrite overwrites below the length, appends
at it and faults past it; a fault reports the slot, its storage address `32768 + i` and the length (R42, R43, decision
D7, conflict C5). The recorded operand is R141's, computed from the slot as log 11 says (DEDUCED). For `i` above 32765,
which R42 and R43 do not cover and no operand names, the same is the model's choice (log 9). -/
def Obligations.MemoryAccessesKeepTheBounds : Prop :=
  ∀ (m : Memory) (i : Nat) (x : Value),
    (∀ h : i < m.length, memRead m i = .ok m[i] ∧ memWrite m i x = .ok (m.set i x)) ∧
    (m.length ≤ i → ∃ c, memRead m i = .error c ∧ c = .dataReadOutOfBounds (operandCode (.var i)) i m.length ∧
      faultAddress c = some (32768 + i)) ∧
    (i = m.length → memWrite m i x = .ok (m ++ [x])) ∧
    (m.length < i → ∃ c, memWrite m i x = .error c ∧ c = .dataWriteOutOfBounds (operandCode (.var i)) i m.length ∧
      faultAddress c = some (32768 + i))

/-- A read after a write gives the value written, every other slot reads as before, and the memory keeps its form
(R43, R52). -/
def Obligations.ReadAfterWriteGivesTheValueWritten : Prop :=
  ∀ (m n : Memory) (i : Nat) (x : Value), memWrite m i x = .ok n →
    memRead n i = .ok x ∧ (∀ j, j ≠ i → n[j]? = m[j]?) ∧ (m.length ≤ n.length ∧ n.length ≤ m.length + 1) ∧
      (Memory.wf m → i ≤ 32765 → Memory.wf n)

/-- The data memory never shrinks, and it grows by one cell only where a MOV appends at the slot of its length (R32,
R43, R91, which the spec derives). -/
def Obligations.OnlyMovAppendsACell : Prop :=
  ∀ s t : State, step s = .next t →
    t.dm.length = s.dm.length ∨
      (t.dm.length = s.dm.length + 1 ∧
        ∃ w src, s.prog[s.pc]? = some w ∧ decode w = .mov (.var s.dm.length) src)

/-! ## MOV -/

/-- MOV completes for a readable source: the destination holds the source's value (AC, ECX, an existing cell, or a new
cell at the slot of the length) and PC advances (R90, R123, decision D7). -/
def Obligations.MovWritesTheSourceValue : Prop :=
  ∀ (s : State) (src : Operand) (x : Value), readOperand src s = .ok x →
    exec (.mov (.reg .ac) src) s = .next { s with ac := x, pc := s.pc + 1 } ∧
    exec (.mov (.reg .ecx) src) s = .next { s with ecx := x, pc := s.pc + 1 } ∧
    (∀ i, i < s.dm.length →
      exec (.mov (.var i) src) s = .next { s with dm := s.dm.set i x, pc := s.pc + 1 }) ∧
    (s.dm.length ≤ 32765 →
      exec (.mov (.var s.dm.length) src) s = .next { s with dm := s.dm ++ [x], pc := s.pc + 1 })

/-- MOV's faults in their order: the source's read, then a literal destination, then a destination past the append
slot; each leaves all but ST as it was and records what R141 lists, in the model's form of it, log 11 (R90, R143, R147,
decisions D5, D7 and D10). -/
def Obligations.MovFaultsInOrder : Prop :=
  ∀ (s : State) (dst src : Operand),
    (∀ j, src = .var j → s.dm.length ≤ j →
      exec (.mov dst src) s = .next { s with st := .faulted ⟨.dataReadOutOfBounds (operandCode src) j s.dm.length, s.pc, s.ir⟩ }) ∧
    (∀ x, readOperand src s = .ok x →
      (∀ c, dst = .lit c →
        exec (.mov dst src) s = .next { s with st := .faulted ⟨.illegalDestination (operandCode dst), s.pc, s.ir⟩ }) ∧
      (∀ i, dst = .var i → s.dm.length < i →
        exec (.mov dst src) s = .next { s with st := .faulted ⟨.dataWriteOutOfBounds (operandCode dst) i s.dm.length, s.pc, s.ir⟩ }))

/-- MOV of an existing variable or of a register to itself changes only PC (R90, corner case `s = d`). -/
def Obligations.MovToItselfChangesOnlyThePc : Prop :=
  ∀ (s : State) (o : Operand) (x : Value), (∀ c, o ≠ .lit c) → readOperand o s = .ok x →
    exec (.mov o o) s = .next { s with pc := s.pc + 1 }

/-! ## ADD, SUB, MUL, DIV -/

/-- ADD completes for a readable destination and source: `d <- d + s` (R101, decision D1). -/
def Obligations.AddWritesTheSum : Prop :=
  ∀ (s : State) (src : Operand) (b : Value), readOperand src s = .ok b →
    exec (.add (.reg .ac) src) s = .next { s with ac := s.ac + b, pc := s.pc + 1 } ∧
    exec (.add (.reg .ecx) src) s = .next { s with ecx := s.ecx + b, pc := s.pc + 1 } ∧
    ∀ i a, s.dm[i]? = some a →
      exec (.add (.var i) src) s = .next { s with dm := s.dm.set i (a + b), pc := s.pc + 1 }

/-- SUB completes: `d <- d − s`, negative where the source is the greater (R102, decision D1, conflict C8). -/
def Obligations.SubWritesTheDifference : Prop :=
  ∀ (s : State) (src : Operand) (b : Value), readOperand src s = .ok b →
    exec (.sub (.reg .ac) src) s = .next { s with ac := s.ac - b, pc := s.pc + 1 } ∧
    exec (.sub (.reg .ecx) src) s = .next { s with ecx := s.ecx - b, pc := s.pc + 1 } ∧
    ∀ i a, s.dm[i]? = some a →
      exec (.sub (.var i) src) s = .next { s with dm := s.dm.set i (a - b), pc := s.pc + 1 }

/-- MUL completes: `d <- d × s` (R103, decision D1). -/
def Obligations.MulWritesTheProduct : Prop :=
  ∀ (s : State) (src : Operand) (b : Value), readOperand src s = .ok b →
    exec (.mul (.reg .ac) src) s = .next { s with ac := s.ac * b, pc := s.pc + 1 } ∧
    exec (.mul (.reg .ecx) src) s = .next { s with ecx := s.ecx * b, pc := s.pc + 1 } ∧
    ∀ i a, s.dm[i]? = some a →
      exec (.mul (.var i) src) s = .next { s with dm := s.dm.set i (a * b), pc := s.pc + 1 }

/-- DIV completes for a divisor other than 0: `d <- d ÷ s`, exactly (R104, decision D1, conflict C2). -/
def Obligations.DivWritesTheExactQuotient : Prop :=
  ∀ (s : State) (src : Operand) (b : Value), readOperand src s = .ok b → b ≠ 0 →
    exec (.div (.reg .ac) src) s = .next { s with ac := s.ac / b, pc := s.pc + 1 } ∧
    exec (.div (.reg .ecx) src) s = .next { s with ecx := s.ecx / b, pc := s.pc + 1 } ∧
    ∀ i a, s.dm[i]? = some a →
      exec (.div (.var i) src) s = .next { s with dm := s.dm.set i (a / b), pc := s.pc + 1 }

/-- The reads that an arithmetic instruction cannot make: the missing cell of operand1 is reported before that of
operand2, and both before anything else (R100, R147, decision D10). A missing destination cell is thus a read fault,
never an append (R91). The record is R141's, in the model's form of it, log 11. -/
def Obligations.ArithmeticReadsFaultFirst : Prop :=
  ∀ (s : State) (dst src : Operand) (i : Instr),
    i = .add dst src ∨ i = .sub dst src ∨ i = .mul dst src ∨ i = .div dst src →
    (∀ j, dst = .var j → s.dm.length ≤ j →
      exec i s = .next { s with st := .faulted ⟨.dataReadOutOfBounds (operandCode dst) j s.dm.length, s.pc, s.ir⟩ }) ∧
    (∀ j a, readOperand dst s = .ok a → src = .var j → s.dm.length ≤ j →
      exec i s = .next { s with st := .faulted ⟨.dataReadOutOfBounds (operandCode src) j s.dm.length, s.pc, s.ir⟩ })

/-- A zero divisor faults with the dividend recorded, whatever the destination, a literal included; only then does
a literal destination fault, as it does for ADD, SUB and MUL (R104, R147, decisions D5, D6 and D10). The record
is R141's, in the model's form of it, log 11. -/
def Obligations.DivideByZeroThenIllegalDestination : Prop :=
  ∀ (s : State) (dst src : Operand) (a b : Value), readOperand dst s = .ok a → readOperand src s = .ok b →
    (b = 0 → exec (.div dst src) s = .next { s with st := .faulted ⟨.divideByZero a, s.pc, s.ir⟩ }) ∧
    ∀ c, dst = .lit c →
      (b ≠ 0 → exec (.div dst src) s = .next { s with st := .faulted ⟨.illegalDestination (operandCode dst), s.pc, s.ir⟩ }) ∧
      ∀ i, i = .add dst src ∨ i = .sub dst src ∨ i = .mul dst src →
        exec i s = .next { s with st := .faulted ⟨.illegalDestination (operandCode dst), s.pc, s.ir⟩ }

/-- Division is exact: where a DIV by a literal completes, the MUL by the same literal restores the destination (R104,
R105, decision D1). -/
def Obligations.MulUndoesDiv : Prop :=
  ∀ (s t u : State) (dst : Operand) (c : Nat), s.st = .running →
    exec (.div dst (.lit c)) s = .next t → t.st = .running → exec (.mul dst (.lit c)) t = .next u →
    u = { s with pc := s.pc + 2 }

/-! ## LOOP and the unassigned opcodes -/

/-- LOOP completes in every state: it redirects to its raw target iff `ECX > 0`, else falls through, and writes only
PC (R124, R66, decisions D3 and D11, conflict C1). -/
def Obligations.LoopRedirectsWhileEcxIsPositive : Prop :=
  ∀ (s : State) (t x : Field),
    (0 < s.ecx → exec (.loop t x) s = .next { s with pc := t.toNat }) ∧
    (s.ecx ≤ 0 → exec (.loop t x) s = .next { s with pc := s.pc + 1 })

/-- Two words of opcode 0101, or of an unassigned opcode under `AsLoop`, that differ only in bits 15:0 execute alike:
each held in IR, they lead to states that differ in IR alone (R69, decisions D4 and D11). -/
def Obligations.LoopIgnoresItsLowBits : Prop :=
  ∀ (v w : Word) (s : State), v.extractLsb' 16 20 = w.extractLsb' 16 20 →
    v.extractLsb' 32 4 = 0b0101#4 ∨ (6 ≤ (v.extractLsb' 32 4).toNat ∧ s.policy = .asLoop) →
    ∃ t, exec (decode v) { s with ir := v } = .next t ∧ exec (decode w) { s with ir := w } = .next { t with ir := w }

/-- A taken LOOP to a target at or past N is no fault: the next step halts there (R125, R121, decisions D3 and D7). -/
def Obligations.LoopPastTheProgramHaltsNext : Prop :=
  ∀ (s : State) (w : Word) (t x : Field), s.st = .running → s.prog[s.pc]? = some w → decode w = .loop t x →
    0 < s.ecx → s.prog.length ≤ t.toNat →
    runSteps 2 s = .next { s with ir := w, pc := t.toNat, st := .halted }

/-- A LOOP that targets itself with `ECX > 0` runs forever: after every number of steps the state is the same and
still running (R171, decision D3). -/
def Obligations.LoopToItselfNeverEnds : Prop :=
  ∀ (s : State) (w : Word) (t x : Field), s.st = .running → s.prog[s.pc]? = some w → decode w = .loop t x →
    t.toNat = s.pc → 0 < s.ecx →
    NeverEnds s ∧ ∀ k, runSteps (k + 1) s = .next { s with ir := w }

/-- Under `Illegal` an unassigned word faults with its opcode, IR and PC recorded, and changes nothing else (R127,
R141, R143, decision D4). -/
def Obligations.UnassignedOpcodeFaultsUnderIllegal : Prop :=
  ∀ (s : State) (t x : Field) (i : Instr) (op : Opcode), s.policy = .illegal →
    (i, op) ∈ [(Instr.unassigned6 t x, 0b0110#4), (.unassigned7 t x, 0b0111#4), (.unassigned8 t x, 0b1000#4),
      (.unassigned9 t x, 0b1001#4), (.unassignedA t x, 0b1010#4), (.unassignedB t x, 0b1011#4),
      (.unassignedC t x, 0b1100#4), (.unassignedD t x, 0b1101#4), (.unassignedE t x, 0b1110#4),
      (.unassignedF t x, 0b1111#4)] →
    exec i s = .next { s with st := .faulted ⟨.illegalOpcode op, s.pc, s.ir⟩ }

/-- Under `AsLoop` each of the ten unassigned opcodes completes as LOOP in every respect (R127, decision D4). -/
def Obligations.UnassignedOpcodeRunsAsLoop : Prop :=
  ∀ (s : State) (t x : Field) (i : Instr), s.policy = .asLoop →
    i ∈ [Instr.unassigned6 t x, .unassigned7 t x, .unassigned8 t x, .unassigned9 t x, .unassignedA t x,
      .unassignedB t x, .unassignedC t x, .unassignedD t x, .unassignedE t x, .unassignedF t x] →
    (0 < s.ecx → exec i s = .next { s with pc := t.toNat }) ∧
    (s.ecx ≤ 0 → exec i s = .next { s with pc := s.pc + 1 })

/-! ## Frames and whole-machine rules -/

/-- The frame of MOV, ADD, SUB, MUL and DIV: a register that is not the destination, every cell but the destination's
slot (all cells, where the destination is none), IR, PROG and the policy are unchanged (R90, R106, R143). -/
def Obligations.DataInstructionsWriteOnlyTheirDestination : Prop :=
  ∀ (s u : State) (i : Instr) (dst src : Operand),
    i = .mov dst src ∨ i = .add dst src ∨ i = .sub dst src ∨ i = .mul dst src ∨ i = .div dst src →
    exec i s = .next u →
    (∀ r, dst ≠ .reg r → readReg r u = readReg r s) ∧
    (∀ j, dst ≠ .var j → (memRead u.dm j).toOption = (memRead s.dm j).toOption) ∧
    u.ir = s.ir ∧ u.prog = s.prog ∧ u.policy = s.policy ∧
    (u.st = s.st ∨ ∃ record, u.st = .faulted record)

/-- The frame of LOOP and the unassigned words: they store nothing and write no register but PC, and only an
unassigned word under `Illegal` writes ST (R124, R127, decision D4). -/
def Obligations.LoopAndUnassignedWriteOnlyThePc : Prop :=
  ∀ (s u : State) (i : Instr) (t : Field), jumpTarget i = some t → exec i s = .next u →
    u.ac = s.ac ∧ u.ecx = s.ecx ∧ u.dm = s.dm ∧ u.ir = s.ir ∧ u.prog = s.prog ∧ u.policy = s.policy ∧
      (runsAsLoop s.policy i = true → u.st = s.st) ∧ (runsAsLoop s.policy i = false → u.pc = s.pc)

/-- Fault entry is precise: the state is the one before the instruction, with ST alone changed, and the record holds
its PC and IR (R143, decision D7). -/
def Obligations.FaultsArePrecise : Prop :=
  ∀ (i : Instr) (s u : State) (record : FaultRecord), s.st = .running → exec i s = .next u →
    u.st = .faulted record → u = { s with st := .faulted record } ∧ record.pc = s.pc ∧ record.word = s.ir

/-- Which instructions raise which fault, and each cause's code, 1 to 5 (R141, R142): a write out of bounds only MOV, a zero divisor only DIV, an
illegal opcode only an unassigned word under `Illegal`, and LOOP none (decisions D4 to D7). -/
def Obligations.FaultCausesBelongToTheirInstructions : Prop :=
  ∀ (i : Instr) (s u : State) (record : FaultRecord), s.st = .running → exec i s = .next u →
    u.st = .faulted record → causeBelongsTo s i record.cause

/-- PC is written by the sequential advance and the LOOP redirect alone, and no instruction reads it as data or stores
it: AC, ECX and DM come out the same whatever PC was (R25). -/
def Obligations.PcOnlyAdvancesOrIsRedirected : Prop :=
  (∀ (i : Instr) (s u : State), s.st = .running → exec i s = .next u → u.st = .running →
    u.pc = s.pc + 1 ∨ (runsAsLoop s.policy i = true ∧ ∃ t, jumpTarget i = some t ∧ u.pc = t.toNat)) ∧
  ∀ (i : Instr) (s u v : State) (p : Nat), exec i s = .next u → exec i { s with pc := p } = .next v →
    v.ac = u.ac ∧ v.ecx = u.ecx ∧ v.dm = u.dm

/-! ## Assembled programs -/

/-- Every word of an assembled program decodes to the operation of its line, each operand classified as the constant,
variable or register that its token names; and a label marker's position is recovered as the target of each LOOP for
which it is the most recent one (R86). -/
def Obligations.AssembledWordsDenoteTheirLines : Prop :=
  ∀ (text : List Assembler.Text) (ws : List Word), Assembler.assemble text = .ok ws →
    ∃ a, Assembler.assembleFrom Assembler.AsmState.start (text.map Assembler.parseAsmLine) = .ok a ∧
      List.Forall₂ (lineDenotes a.symbols) ((text.map Assembler.parseAsmLine).filter (· ≠ .label)) (ws.map decode) ∧
      loopsTargetTheLastLabel (text.map Assembler.parseAsmLine) (ws.map decode)

/-- Every LOOP the assembler produces jumps backward or to itself and has zeros in bits 15:0, it produces no unassigned
opcode, and it refuses a LOOP line with no label marker before it (R81, decision D14). -/
def Obligations.AssembledLoopsJumpBackward : Prop :=
  ∀ (text : List Assembler.Text) (ws : List Word), Assembler.assemble text = .ok ws →
    (∀ (k : Nat) (w : Word) (t : Field), ws[k]? = some w → jumpTarget (decode w) = some t →
      decode w = .loop t 0 ∧ t.toNat ≤ k) ∧
    ∀ pre post, text.map Assembler.parseAsmLine = pre ++ .instr ['L', 'O', 'O', 'P'] [] :: post → .label ∈ pre

/-- Variable addresses are allocated once each, in order, and stay allocated: the symbol table has no name twice, at
most 32766 names, and only grows at its end (R78, decision D15). -/
def Obligations.SymbolTableOnlyGrowsAtItsEnd : Prop :=
  ∀ (a b : Assembler.AsmState) (ls : List Assembler.AsmLine), a.symbols.Nodup → a.symbols.length ≤ 32766 →
    Assembler.assembleFrom a ls = .ok b →
    a.symbols <+: b.symbols ∧ b.symbols.Nodup ∧ b.symbols.length ≤ 32766

/-- What each form of operand token encodes to: a register's code, a known variable's address, a new variable's freshly
allocated address, a decimal literal's own value (R76, R78, R82, R83, decisions D12, D13, D15 and D23). -/
def Obligations.OperandTokensEncodeAsTheirForms : Prop :=
  ∀ (symbols : Assembler.Symbols) (t : Assembler.Text),
    (t = ['A', 'C'] → Assembler.resolveOperand symbols t = .ok (.reg .ac, symbols)) ∧
    (t = ['E', 'C', 'X'] → Assembler.resolveOperand symbols t = .ok (.reg .ecx, symbols)) ∧
    (Assembler.isDecimal t = true → Assembler.decimalValue t ≤ 32767 →
      Assembler.resolveOperand symbols t = .ok (.lit (Assembler.decimalValue t), symbols)) ∧
    (Assembler.isVariableName t = true →
      (∀ k, symbols[k]? = some t → symbols.Nodup →
        Assembler.resolveOperand symbols t = .ok (.var k, symbols)) ∧
      (t ∉ symbols → symbols.length ≤ 32765 →
        Assembler.resolveOperand symbols t = .ok (.var symbols.length, symbols ++ [t])))

/-- The six fatal assembler errors, each with its cause on a line, and that the first line in error aborts the encoding
with no image (R84, decisions D13, D14, D15 and D22). Where several apply to one line, R84 does not say which is
reported: the order mnemonic, operand count, operand1, operand2 is the model's choice (log 8). -/
def Obligations.AssemblerErrorsHaveTheirCauses : Prop :=
  (∀ (a : Assembler.AsmState) (m : Assembler.Text) (operands : List Assembler.Text),
    (Assembler.mnemonicNamed m = none →
      Assembler.assembleLine a (.instr m operands) = .error .unknownOperator) ∧
    (∀ n, Assembler.mnemonicNamed m = some n → n ≠ .loop →
      (operands.length ≠ 2 → Assembler.assembleLine a (.instr m operands) = .error .operandCount) ∧
      ∀ t1 t2 e, operands = [t1, t2] →
        (tokenError a.symbols t1 e → Assembler.assembleLine a (.instr m operands) = .error e) ∧
        ∀ o symbols, Assembler.resolveOperand a.symbols t1 = .ok (o, symbols) → tokenError symbols t2 e →
          Assembler.assembleLine a (.instr m operands) = .error e) ∧
    (Assembler.mnemonicNamed m = some .loop →
      (operands ≠ [] → Assembler.assembleLine a (.instr m operands) = .error .operandCount) ∧
      (operands = [] → a.target = none → Assembler.assembleLine a (.instr m operands) = .error .noActiveLabel) ∧
      ∀ n, operands = [] → a.target = some n → 65535 < n →
        Assembler.assembleLine a (.instr m operands) = .error .literalOverflow)) ∧
  ∀ (text : List Assembler.Text) (pre post : List Assembler.AsmLine) (l : Assembler.AsmLine) (a : Assembler.AsmState)
    (e : Assembler.AsmError),
    text.map Assembler.parseAsmLine = pre ++ l :: post →
    Assembler.assembleFrom Assembler.AsmState.start pre = .ok a → Assembler.assembleLine a l = .error e →
    Assembler.assemble text = .error e

/-- A program whose variables first appear each as operand1 of a MOV from an operand already written, slots in order,
and whose jump targets, those of unassigned words included, are backward or their own index, never faults on a
data-memory bound, under either policy (R170, which the spec derives). -/
def Obligations.ProgramsThatWriteInOrderStayInBounds : Prop :=
  ∀ (ws : List Word) (policy : UnassignedOpcodePolicy), writesInOrder 0 0 (ws.map decode) = true →
    NeverOutOfBounds (resetWith ws policy)
end

