-- ==== Sys2Proof/Laws/Assembler.lean ====
section
/-! SUPPORT. What the assembler's operations can answer, said once: an operand token, the operands of a data
instruction, a line. -/

namespace Sys2Proof.Machine.Assembler

/-- A table that only grew at its end still names what it named. -/
theorem tokenDenotes_of_prefix (sy sy' : Symbols) (h : sy <+: sy') (t : Text) (o : Operand)
    (hd : tokenDenotes sy t o) : tokenDenotes sy' t o := by
  cases o with
  | lit c => exact hd
  | reg r => exact hd
  | var k =>
    obtain ⟨ext, rfl⟩ := h
    obtain ⟨hk, -⟩ := List.getElem?_eq_some_iff.mp hd.2
    exact ⟨hd.1, by rw [List.getElem?_append_left hk]; exact hd.2⟩

/-- The same for a line. -/
theorem lineDenotes_of_prefix (sy sy' : Symbols) (h : sy <+: sy') (l : AsmLine) (i : Instr)
    (hd : lineDenotes sy l i) : lineDenotes sy' l i := by
  cases i with
  | mov | add | sub | mul | div =>
    obtain ⟨t1, t2, rfl, h1, h2⟩ := hd
    exact ⟨t1, t2, rfl, tokenDenotes_of_prefix _ _ h _ _ h1, tokenDenotes_of_prefix _ _ h _ _ h2⟩
  | _ => exact hd

/-- What a table keeps when names are added to it: its names and their places, no name twice, and the capacity. -/
structure Extends (sy sy' : Symbols) : Prop where
  isPrefix : sy <+: sy'
  nodup : sy.Nodup → sy'.Nodup
  capacity : sy.length ≤ 32766 → sy'.length ≤ 32766

theorem Extends.refl (sy : Symbols) : Extends sy sy := ⟨List.prefix_rfl, id, id⟩

theorem Extends.trans {a b c : Symbols} (h : Extends a b) (h' : Extends b c) : Extends a c :=
  ⟨h.isPrefix.trans h'.isPrefix, h'.nodup ∘ h.nodup, h'.capacity ∘ h.capacity⟩

/-- An allocation: the slot that holds the name in the extended table. -/
theorem allocate_ok (sy sy' : Symbols) (t : Text) (k : Nat) (h : allocate sy t = .ok (k, sy')) :
    sy'[k]? = some t ∧ Extends sy sy' := by
  unfold allocate at h
  cases hx : sy.idxOf? t with
  | some j =>
    simp only [hx, Except.ok.injEq, Prod.mk.injEq] at h
    obtain ⟨rfl, rfl⟩ := h
    exact ⟨by grind [List.idxOf?_eq_some_iff], .refl _⟩
  | none =>
    have hn : t ∉ sy := by simpa using hx
    simp only [hx] at h
    split at h
    · simp only [Except.ok.injEq, Prod.mk.injEq] at h
      obtain ⟨rfl, rfl⟩ := h
      refine ⟨by simp, List.prefix_append _ _, fun hd => ?_, fun _ => by simp; omega⟩
      rw [List.nodup_append]
      exact ⟨hd, by simp, by simp; intro a ha e; exact hn (e ▸ ha)⟩
    · cases h

/-- A resolved token denotes its operand, which is well-formed within the capacity. -/
theorem resolveOperand_ok (sy sy' : Symbols) (t : Text) (o : Operand) (h : resolveOperand sy t = .ok (o, sy')) :
    tokenDenotes sy' t o ∧ Extends sy sy' ∧ (sy.length ≤ 32766 → o.wf = true) := by
  unfold resolveOperand at h
  split at h
  · split at h
    · simp only [Except.ok.injEq, Prod.mk.injEq] at h
      obtain ⟨rfl, rfl⟩ := h
      exact ⟨⟨by assumption, rfl⟩, .refl _, fun _ => by simpa [Operand.wf]⟩
    · cases h
  · split at h
    · simp only [Except.ok.injEq, Prod.mk.injEq] at h
      obtain ⟨rfl, rfl⟩ := h
      exact ⟨by assumption, .refl _, fun _ => rfl⟩
    · split at h
      · rename_i hv
        cases ha : allocate sy t with
        | error e => simp [ha] at h
        | ok p =>
          obtain ⟨k, sy''⟩ := p
          simp only [ha, Except.ok.injEq, Prod.mk.injEq] at h
          obtain ⟨rfl, rfl⟩ := h
          obtain ⟨hk, hx⟩ := allocate_ok _ _ _ _ ha
          refine ⟨⟨hv, hk⟩, hx, fun hl => ?_⟩
          obtain ⟨hlt, -⟩ := List.getElem?_eq_some_iff.mp hk
          have := hx.capacity hl
          simp [Operand.wf]
          omega
      · cases h

/-- A data line emits its operation on the two operands that its tokens denote. -/
theorem assembleData_ok (make : Operand → Operand → Instr) (a b : AsmState) (operands : List Text)
    (h : assembleData make a operands = .ok b) :
    ∃ t1 t2 d s sy, operands = [t1, t2] ∧ b = emit a sy (make d s) ∧ Extends a.symbols sy ∧
      tokenDenotes sy t1 d ∧ tokenDenotes sy t2 s ∧ (a.symbols.length ≤ 32766 → d.wf = true ∧ s.wf = true) := by
  unfold assembleData at h
  split at h
  · rename_i t1 t2
    split at h
    · cases h
    · rename_i d s1 h1
      split at h
      · cases h
      · rename_i s s2 h2
        cases h
        obtain ⟨d1, x1, w1⟩ := resolveOperand_ok _ _ _ _ h1
        obtain ⟨d2, x2, w2⟩ := resolveOperand_ok _ _ _ _ h2
        exact ⟨t1, t2, d, s, s2, rfl, rfl, x1.trans x2, tokenDenotes_of_prefix _ _ x2.isPrefix _ _ d1, d2,
          fun hl => ⟨w1 hl, w2 (x1.capacity hl)⟩⟩
  · cases h

/-- A LOOP line emits LOOP to the active target, with zeros below it. -/
theorem assembleLoop_ok (a b : AsmState) (operands : List Text) (h : assembleLoop a operands = .ok b) :
    ∃ n, operands = [] ∧ a.target = some n ∧ n ≤ 65535 ∧ b = emit a a.symbols (.loop (BitVec.ofNat 16 n) 0) := by
  unfold assembleLoop at h
  split at h
  · split at h
    · cases h
    · rename_i n hn
      split at h
      · exact ⟨n, rfl, hn, by assumption, (Except.ok.inj h).symm⟩
      · cases h
  · cases h

/-- What an instruction line emits: LOOP to the active target, or a data instruction that the line denotes. -/
def Emits (a b : AsmState) (m : Text) (operands : List Text) : Prop :=
  ∃ i, b.target = a.target ∧ b.emitted = a.emitted ++ [i] ∧ Extends a.symbols b.symbols ∧
    lineDenotes b.symbols (.instr m operands) i ∧ (a.symbols.length ≤ 32766 → i.wf = true) ∧
    ((m = ['L', 'O', 'O', 'P'] ∧ ∃ n t, a.target = some n ∧ t.toNat = n ∧ i = .loop t 0) ∨
      (m ≠ ['L', 'O', 'O', 'P'] ∧ jumpTarget i = none))

/-- An instruction line that assembles emits one instruction, as `Emits` says. -/
theorem assembleLine_instr_ok (a b : AsmState) (m : Text) (operands : List Text)
    (h : assembleLine a (.instr m operands) = .ok b) : Emits a b m operands := by
  have data : ∀ make, assembleData make a operands = .ok b → m ≠ ['L', 'O', 'O', 'P'] →
      (∀ sy t1 t2 d s, tokenDenotes sy t1 d → tokenDenotes sy t2 s → lineDenotes sy (.instr m [t1, t2]) (make d s)) →
      (∀ d s, Instr.wf (make d s) = (d.wf && s.wf)) → (∀ d s, jumpTarget (make d s) = none) → Emits a b m operands := by
    intro make hb hm hden hwf hj
    obtain ⟨t1, t2, d, s, sy, rfl, rfl, hx, h1, h2, hw⟩ := assembleData_ok make a b operands hb
    exact ⟨make d s, rfl, rfl, hx, hden _ _ _ _ _ h1 h2, fun hl => by simp [hwf, hw hl], .inr ⟨hm, hj d s⟩⟩
  unfold assembleLine at h
  cases hn : mnemonicNamed m with
  | none => simp [hn] at h
  | some n =>
    simp only [hn] at h
    unfold mnemonicNamed at hn
    cases n with
    | loop =>
      obtain rfl : m = ['L', 'O', 'O', 'P'] := by grind
      obtain ⟨n, rfl, ht, hle, rfl⟩ := assembleLoop_ok a b operands h
      exact ⟨_, rfl, rfl, .refl _, rfl, fun _ => rfl, .inl ⟨rfl, n, _, ht, by simp; omega, rfl⟩⟩
    | mov =>
      obtain rfl : m = ['M', 'O', 'V'] := by grind
      exact data .mov h (by decide) (fun _ t1 t2 _ _ h1 h2 => ⟨t1, t2, rfl, h1, h2⟩) (fun _ _ => rfl) (fun _ _ => rfl)
    | add =>
      obtain rfl : m = ['A', 'D', 'D'] := by grind
      exact data .add h (by decide) (fun _ t1 t2 _ _ h1 h2 => ⟨t1, t2, rfl, h1, h2⟩) (fun _ _ => rfl) (fun _ _ => rfl)
    | sub =>
      obtain rfl : m = ['S', 'U', 'B'] := by grind
      exact data .sub h (by decide) (fun _ t1 t2 _ _ h1 h2 => ⟨t1, t2, rfl, h1, h2⟩) (fun _ _ => rfl) (fun _ _ => rfl)
    | mul =>
      obtain rfl : m = ['M', 'U', 'L'] := by grind
      exact data .mul h (by decide) (fun _ t1 t2 _ _ h1 h2 => ⟨t1, t2, rfl, h1, h2⟩) (fun _ _ => rfl) (fun _ _ => rfl)
    | div =>
      obtain rfl : m = ['D', 'I', 'V'] := by grind
      exact data .div h (by decide) (fun _ t1 t2 _ _ h1 h2 => ⟨t1, t2, rfl, h1, h2⟩) (fun _ _ => rfl) (fun _ _ => rfl)

/-- Lines are assembled one after another. -/
theorem assembleFrom_append (a b : AsmState) (pre post : List AsmLine) (h : assembleFrom a pre = .ok b) :
    assembleFrom a (pre ++ post) = assembleFrom b post := by
  induction pre generalizing a with
  | nil => cases h; rfl
  | cons l ls ih =>
    simp only [List.cons_append, assembleFrom] at h ⊢
    cases hl : assembleLine a l with
    | error e => simp [hl] at h
    | ok c => simp only [hl] at h ⊢; exact ih c h

@[simp] theorem instructionLines_nil : instructionLines [] = 0 := rfl
@[simp] theorem instructionLines_label (ls : List AsmLine) : instructionLines (.label :: ls) = instructionLines ls := rfl
@[simp] theorem instructionLines_instr (m : Text) (o : List Text) (ls : List AsmLine) :
    instructionLines (.instr m o :: ls) = instructionLines ls + 1 := by simp [instructionLines]
theorem instructionLines_append (a b : List AsmLine) :
    instructionLines (a ++ b) = instructionLines a + instructionLines b := by simp [instructionLines]

end Sys2Proof.Machine.Assembler
end

