-- ==== Sys2Proof/Laws/Encoding.lean ====
section
/-! SUPPORT. The small lemmas of the field split, of the addressing scheme and of the serial form. -/

namespace Sys2Proof

/-- The split recovers the joined fields. -/
@[simp] theorem splitFields_joinFields (f : Fields) : splitFields (joinFields f) = f := by
  obtain ⟨o, a, b⟩ := f
  simp only [splitFields, joinFields, Fields.mk.injEq]
  refine ⟨?_, ?_, ?_⟩ <;> ext k hk <;> simp <;> grind

/-- Joining the split fields recovers the word: the three fields cover it. -/
@[simp] theorem joinFields_splitFields (w : Word) : joinFields (splitFields w) = w := by
  apply BitVec.eq_of_getLsbD_eq
  intro k hk
  rw [joinFields, BitVec.getLsbD_cast, BitVec.getLsbD_append, BitVec.getLsbD_append]
  simp only [splitFields, BitVec.getLsbD_extractLsb']
  grind

/-- A well-formed operand is what its code classifies as. -/
theorem classify_operandCode (o : Operand) (h : o.wf = true) : classify (operandCode o) = o := by
  cases o with
  | lit c =>
    have : c ≤ 32767 := by simpa [Operand.wf] using h
    simp [classify, operandCode, Nat.mod_eq_of_lt (show c < 65536 by omega), this]
  | var i =>
    have : i ≤ 32765 := by simpa [Operand.wf] using h
    simp only [classify, operandCode, BitVec.toNat_ofNat, Nat.mod_eq_of_lt (show 32768 + i < 2 ^ 16 by omega)]
    grind
  | reg r => cases r <;> decide

/-- Every field value is the code of what it classifies as. -/
@[simp] theorem operandCode_classify (v : Field) : operandCode (classify v) = v := by
  have := v.isLt
  apply BitVec.eq_of_toNat_eq
  unfold classify
  split
  · simp [operandCode]
  · split
    · simp only [operandCode, BitVec.toNat_ofNat]
      omega
    · split <;> simp [operandCode] <;> omega

/-- Classifying gives a well-formed operand. -/
@[simp] theorem classify_wf (v : Field) : (classify v).wf = true := by
  unfold classify
  split
  · simpa [Operand.wf]
  · split
    · simp [Operand.wf]; omega
    · split <;> rfl

/-- The storage address of a slot that an operand can name. -/
theorem operandCode_var_toNat (i : Nat) (h : i ≤ 32765) : (operandCode (.var i)).toNat = 32768 + i := by
  simp [operandCode]; omega

/-- An image's words, where it is accepted, are its lines' words in order. -/
theorem parseImage_cons (line : List Char) (rest : List (List Char)) (ws : List Word) :
    parseImage (line :: rest) = .ok ws ↔
      ∃ v vs, parseLine line = .ok v ∧ parseImage rest = .ok vs ∧ ws = v :: vs := by
  rw [parseImage]
  cases parseLine line with
  | error e => simp
  | ok v => cases parseImage rest <;> simp [eq_comm]

end Sys2Proof
end

