-- ==== Sys2Proof/Laws/Memory.lean ====
section
/-! SUPPORT. The laws of the data memory: what MemRead and MemWrite can answer, and that MemWrite keeps the form. -/

namespace Sys2Proof.Machine

/-- MemRead answers a value exactly where a cell exists. -/
theorem memRead_ok_iff (m : Memory) (i : Nat) (x : Value) : memRead m i = .ok x ↔ m[i]? = some x := by
  unfold memRead
  cases m[i]? <;> simp

/-- The one fault of MemRead. -/
theorem memRead_error (m : Memory) (i : Nat) (c : FaultCause) (h : memRead m i = .error c) :
    m.length ≤ i ∧ c = .dataReadOutOfBounds (operandCode (.var i)) i m.length := by
  unfold memRead at h
  cases hm : m[i]? with
  | some v => simp [hm] at h
  | none =>
    simp only [hm, Except.error.injEq] at h
    exact ⟨List.getElem?_eq_none_iff.mp hm, h.symm⟩

/-- MemRead past the last cell faults. -/
theorem memRead_of_le (m : Memory) (i : Nat) (h : m.length ≤ i) :
    memRead m i = .error (.dataReadOutOfBounds (operandCode (.var i)) i m.length) := by
  simp [memRead, List.getElem?_eq_none h]

/-- Everything MemWrite can do when it answers: overwrite a cell, or append one. -/
theorem memWrite_ok (m n : Memory) (i : Nat) (x : Value) (h : memWrite m i x = .ok n) :
    (i < m.length ∧ n = m.set i x) ∨ (i = m.length ∧ n = m ++ [x]) := by
  unfold memWrite at h
  split at h
  · exact .inl ⟨‹_›, (Except.ok.inj h).symm⟩
  · split at h
    · exact .inr ⟨‹_›, (Except.ok.inj h).symm⟩
    · cases h

/-- The one fault of MemWrite. -/
theorem memWrite_error (m : Memory) (i : Nat) (x : Value) (c : FaultCause) (h : memWrite m i x = .error c) :
    m.length < i ∧ c = .dataWriteOutOfBounds (operandCode (.var i)) i m.length := by
  unfold memWrite at h
  split at h
  · cases h
  · split at h
    · cases h
    · exact ⟨by omega, (Except.error.inj h).symm⟩

/-- A write to an existing cell. -/
theorem memWrite_of_lt (m : Memory) (i : Nat) (x : Value) (h : i < m.length) : memWrite m i x = .ok (m.set i x) := by
  simp [memWrite, h]

/-- A write at the length appends. -/
theorem memWrite_length (m : Memory) (x : Value) : memWrite m m.length x = .ok (m ++ [x]) := by
  simp [memWrite]

/-- A write that leaves a gap faults. -/
theorem memWrite_of_gt (m : Memory) (i : Nat) (x : Value) (h : m.length < i) :
    memWrite m i x = .error (.dataWriteOutOfBounds (operandCode (.var i)) i m.length) := by
  simp [memWrite, Nat.not_lt.mpr (Nat.le_of_lt h), Nat.ne_of_gt h]

/-- Every slot but the written one is as before. -/
theorem memWrite_other (m n : Memory) (i j : Nat) (x : Value) (h : memWrite m i x = .ok n) (hj : j ≠ i) :
    n[j]? = m[j]? := by
  obtain ⟨-, rfl⟩ | ⟨rfl, rfl⟩ := memWrite_ok m n i x h
  · exact List.getElem?_set_ne (Ne.symm hj)
  · rw [List.getElem?_append]
    split
    · rfl
    · rw [List.getElem?_eq_none (by simp; omega), List.getElem?_eq_none (by omega)]

/-- A write through a slot that an operand can name keeps the memory's form. -/
theorem memWrite_wf (m n : Memory) (i : Nat) (x : Value) (h : memWrite m i x = .ok n) (hm : Memory.wf m)
    (hi : i ≤ 32765) : Memory.wf n := by
  obtain ⟨-, rfl⟩ | ⟨rfl, rfl⟩ := memWrite_ok m n i x h
  · simpa [Memory.wf] using hm
  · simp [Memory.wf]; omega

/-- Reset's memory has the form. -/
theorem reset_memory_wf : Memory.wf State.reset.dm := by decide

end Sys2Proof.Machine
end

