-- ==== Sys2Proof/Laws/State.lean ====
section
/-! SUPPORT. One lemma per field per update of the state, true by rfl, so that no later proof unfolds an update. -/

namespace Sys2Proof.Machine

variable (s : State) (r : DataReg) (x : Value) (t : Field) (w : Word) (c : FaultCause)
  (prog : List Word) (policy : UnassignedOpcodePolicy)

@[simp] theorem readReg_ac : readReg .ac s = s.ac := rfl
@[simp] theorem readReg_ecx : readReg .ecx s = s.ecx := rfl

@[simp] theorem writeReg_ac : writeReg .ac x s = { s with ac := x } := rfl
@[simp] theorem writeReg_ecx : writeReg .ecx x s = { s with ecx := x } := rfl

theorem writeReg_pc : (writeReg r x s).pc = s.pc := by cases r <;> rfl
theorem writeReg_ir : (writeReg r x s).ir = s.ir := by cases r <;> rfl
theorem writeReg_dm : (writeReg r x s).dm = s.dm := by cases r <;> rfl
theorem writeReg_st : (writeReg r x s).st = s.st := by cases r <;> rfl
theorem writeReg_prog : (writeReg r x s).prog = s.prog := by cases r <;> rfl
theorem writeReg_policy : (writeReg r x s).policy = s.policy := by cases r <;> rfl

/-- A register reads back what was written to it, and the other register is unchanged. -/
theorem readReg_writeReg (q : DataReg) : readReg q (writeReg r x s) = if q = r then x else readReg q s := by
  cases q <;> cases r <;> rfl

@[simp] theorem advancePc_ac : (advancePc s).ac = s.ac := rfl
@[simp] theorem advancePc_ecx : (advancePc s).ecx = s.ecx := rfl
@[simp] theorem advancePc_pc : (advancePc s).pc = s.pc + 1 := rfl
@[simp] theorem advancePc_ir : (advancePc s).ir = s.ir := rfl
@[simp] theorem advancePc_dm : (advancePc s).dm = s.dm := rfl
@[simp] theorem advancePc_st : (advancePc s).st = s.st := rfl
@[simp] theorem advancePc_prog : (advancePc s).prog = s.prog := rfl
@[simp] theorem advancePc_policy : (advancePc s).policy = s.policy := rfl

@[simp] theorem redirectPc_ac : (redirectPc t s).ac = s.ac := rfl
@[simp] theorem redirectPc_ecx : (redirectPc t s).ecx = s.ecx := rfl
@[simp] theorem redirectPc_pc : (redirectPc t s).pc = t.toNat := rfl
@[simp] theorem redirectPc_ir : (redirectPc t s).ir = s.ir := rfl
@[simp] theorem redirectPc_dm : (redirectPc t s).dm = s.dm := rfl
@[simp] theorem redirectPc_st : (redirectPc t s).st = s.st := rfl
@[simp] theorem redirectPc_prog : (redirectPc t s).prog = s.prog := rfl
@[simp] theorem redirectPc_policy : (redirectPc t s).policy = s.policy := rfl

@[simp] theorem raiseFault_ac : (raiseFault c s).ac = s.ac := rfl
@[simp] theorem raiseFault_ecx : (raiseFault c s).ecx = s.ecx := rfl
@[simp] theorem raiseFault_pc : (raiseFault c s).pc = s.pc := rfl
@[simp] theorem raiseFault_ir : (raiseFault c s).ir = s.ir := rfl
@[simp] theorem raiseFault_dm : (raiseFault c s).dm = s.dm := rfl
@[simp] theorem raiseFault_st :
    (raiseFault c s).st = .faulted { cause := c, pc := s.pc, word := s.ir } := rfl
@[simp] theorem raiseFault_prog : (raiseFault c s).prog = s.prog := rfl
@[simp] theorem raiseFault_policy : (raiseFault c s).policy = s.policy := rfl

@[simp] theorem loadIr_ac : (loadIr w s).ac = s.ac := rfl
@[simp] theorem loadIr_ecx : (loadIr w s).ecx = s.ecx := rfl
@[simp] theorem loadIr_pc : (loadIr w s).pc = s.pc := rfl
@[simp] theorem loadIr_ir : (loadIr w s).ir = w := rfl
@[simp] theorem loadIr_dm : (loadIr w s).dm = s.dm := rfl
@[simp] theorem loadIr_st : (loadIr w s).st = s.st := rfl
@[simp] theorem loadIr_prog : (loadIr w s).prog = s.prog := rfl
@[simp] theorem loadIr_policy : (loadIr w s).policy = s.policy := rfl

@[simp] theorem haltRun_ac : (haltRun s).ac = s.ac := rfl
@[simp] theorem haltRun_ecx : (haltRun s).ecx = s.ecx := rfl
@[simp] theorem haltRun_pc : (haltRun s).pc = s.pc := rfl
@[simp] theorem haltRun_ir : (haltRun s).ir = s.ir := rfl
@[simp] theorem haltRun_dm : (haltRun s).dm = s.dm := rfl
@[simp] theorem haltRun_st : (haltRun s).st = .halted := rfl
@[simp] theorem haltRun_prog : (haltRun s).prog = s.prog := rfl
@[simp] theorem haltRun_policy : (haltRun s).policy = s.policy := rfl

@[simp] theorem resetWith_dm : (resetWith prog policy).dm = [] := rfl
@[simp] theorem resetWith_st : (resetWith prog policy).st = .running := rfl
@[simp] theorem resetWith_pc : (resetWith prog policy).pc = 0 := rfl
@[simp] theorem resetWith_prog : (resetWith prog policy).prog = prog := rfl
@[simp] theorem resetWith_policy : (resetWith prog policy).policy = policy := rfl

end Sys2Proof.Machine
end

