-- ==== Sys2Proof/Laws/Operands.lean ====
section
/-! SUPPORT. What each shared operation can do, said once: the operand routines, the two data routines, the end of a
data instruction, and the control routines. -/

namespace Sys2Proof.Machine

@[simp] theorem readOperand_lit (c : Nat) (s : State) : readOperand (.lit c) s = .ok (c : Value) := rfl
@[simp] theorem readOperand_var (i : Nat) (s : State) : readOperand (.var i) s = memRead s.dm i := rfl
@[simp] theorem readOperand_reg (r : DataReg) (s : State) : readOperand (.reg r) s = .ok (readReg r s) := rfl

@[simp] theorem writeOperand_lit (c : Nat) (x : Value) (s : State) :
    writeOperand (.lit c) x s = .error (.illegalDestination (operandCode (.lit c))) := rfl
@[simp] theorem writeOperand_reg (r : DataReg) (x : Value) (s : State) :
    writeOperand (.reg r) x s = .ok (writeReg r x s) := rfl

/-- The one fault of ReadOperand: a variable whose slot does not exist. -/
theorem readOperand_error (o : Operand) (s : State) (c : FaultCause) (h : readOperand o s = .error c) :
    ∃ i, o = .var i ∧ s.dm.length ≤ i ∧ c = .dataReadOutOfBounds (operandCode (.var i)) i s.dm.length := by
  cases o with
  | lit v => cases h
  | reg r => cases h
  | var i => exact ⟨i, rfl, memRead_error _ _ _ h⟩

/-- Everything WriteOperand can do when it answers: write a register, or a data-memory cell. -/
theorem writeOperand_ok (o : Operand) (x : Value) (s u : State) (h : writeOperand o x s = .ok u) :
    (∃ r, o = .reg r ∧ u = writeReg r x s) ∨
      (∃ i m, o = .var i ∧ memWrite s.dm i x = .ok m ∧ u = { s with dm := m }) := by
  cases o with
  | lit v => cases h
  | reg r => exact .inl ⟨r, rfl, (Except.ok.inj h).symm⟩
  | var i =>
    simp only [writeOperand] at h
    cases hm : memWrite s.dm i x with
    | error c => simp [hm] at h
    | ok m =>
      simp only [hm, Except.ok.injEq] at h
      exact .inr ⟨i, m, rfl, hm, h.symm⟩

/-- The two faults of WriteOperand: a literal destination, and a slot past the append position. -/
theorem writeOperand_error (o : Operand) (x : Value) (s : State) (c : FaultCause)
    (h : writeOperand o x s = .error c) :
    (∃ v, o = .lit v ∧ c = .illegalDestination (operandCode (.lit v))) ∨
      (∃ i, o = .var i ∧ s.dm.length < i ∧ c = .dataWriteOutOfBounds (operandCode (.var i)) i s.dm.length) := by
  cases o with
  | lit v => exact .inl ⟨v, rfl, (Except.error.inj h).symm⟩
  | reg r => cases h
  | var i =>
    simp only [writeOperand] at h
    cases hm : memWrite s.dm i x with
    | ok m => simp [hm] at h
    | error d =>
      simp only [hm, Except.error.injEq] at h
      subst h
      exact .inr ⟨i, rfl, memWrite_error _ _ _ _ hm⟩

/-- MOV's routine answers exactly where its read and its write do. -/
theorem move_ok (dst src : Operand) (s u : State) :
    move dst src s = .ok u ↔ ∃ x, readOperand src s = .ok x ∧ writeOperand dst x s = .ok u := by
  unfold move
  cases readOperand src s <;> simp

/-- MOV's faults, in their order. -/
theorem move_error (dst src : Operand) (s : State) (c : FaultCause) :
    move dst src s = .error c ↔
      readOperand src s = .error c ∨ ∃ x, readOperand src s = .ok x ∧ writeOperand dst x s = .error c := by
  unfold move
  cases readOperand src s <;> simp

/-- The arithmetic routine answers exactly where its reads, its operation and its write do. -/
theorem alu_ok (op : Value → Value → Except FaultCause Value) (dst src : Operand) (s u : State) :
    alu op dst src s = .ok u ↔
      ∃ a b x, readOperand dst s = .ok a ∧ readOperand src s = .ok b ∧ op a b = .ok x ∧
        writeOperand dst x s = .ok u := by
  unfold alu
  cases readOperand dst s with
  | error c => simp
  | ok a =>
    cases readOperand src s with
    | error c => simp
    | ok b => cases h : op a b <;> simp [h]

/-- The arithmetic routine's faults, in their order. -/
theorem alu_error (op : Value → Value → Except FaultCause Value) (dst src : Operand) (s : State) (c : FaultCause) :
    alu op dst src s = .error c ↔
      readOperand dst s = .error c ∨
      ∃ a, readOperand dst s = .ok a ∧
        (readOperand src s = .error c ∨
         ∃ b, readOperand src s = .ok b ∧
           (op a b = .error c ∨ ∃ x, op a b = .ok x ∧ writeOperand dst x s = .error c)) := by
  unfold alu
  cases readOperand dst s with
  | error d => simp
  | ok a =>
    cases readOperand src s with
    | error d => simp
    | ok b => cases h : op a b <;> simp [h]

/-- The two ends of a data instruction: the written state with the PC advanced, or a fault entered with nothing
written. -/
theorem settle_next (s u : State) (r : Except FaultCause State) (h : settle s r = .next u) :
    (∃ t, r = .ok t ∧ u = advancePc t) ∨ (∃ c, r = .error c ∧ u = raiseFault c s) := by
  cases r with
  | ok t => exact .inl ⟨t, rfl, (Host.Outcome.next.inj h).symm⟩
  | error c => exact .inr ⟨c, rfl, (Host.Outcome.next.inj h).symm⟩

@[simp] theorem settle_ok (s t : State) : settle s (.ok t) = .next (advancePc t) := rfl
@[simp] theorem settle_error (s : State) (c : FaultCause) : settle s (.error c) = .next (raiseFault c s) := rfl

/-- LOOP's two ends. -/
theorem loopNext_cases (t : Field) (s : State) :
    (0 < s.ecx ∧ loopNext t s = redirectPc t s) ∨ (s.ecx ≤ 0 ∧ loopNext t s = advancePc s) := by
  unfold loopNext loopRedirects
  by_cases h : 0 < s.ecx
  · exact .inl ⟨h, by simp [h]⟩
  · exact .inr ⟨not_lt.mp h, by simp [h]⟩

@[simp] theorem unassigned_illegal (o : Opcode) (t : Field) (s : State) (h : s.policy = .illegal) :
    unassigned o t s = raiseFault (.illegalOpcode o) s := by simp [unassigned, h]

@[simp] theorem unassigned_asLoop (o : Opcode) (t : Field) (s : State) (h : s.policy = .asLoop) :
    unassigned o t s = loopNext t s := by simp [unassigned, h]

end Sys2Proof.Machine
end

