-- ==== Sys2Proof/Laws/Exec.lean ====
section
/-! SUPPORT. What exec and step can do, said once. -/

namespace Sys2Proof.Machine

/-- Every instruction is a data instruction, with a destination, or holds a jump target. -/
theorem destination_or_jumpTarget (i : Instr) :
    (∃ d, destination i = some d ∧ jumpTarget i = none) ∨ (∃ t, jumpTarget i = some t ∧ destination i = none) := by
  cases i <;> simp [destination, jumpTarget]

/-- What a data instruction can do: write its destination and advance the PC, or enter a fault with nothing
written. -/
theorem exec_data_cases (i : Instr) (s u : State) (d : Operand) (hd : destination i = some d)
    (h : exec i s = .next u) :
    (∃ x v, writeOperand d x s = .ok v ∧ u = advancePc v) ∨ (∃ c, u = raiseFault c s) := by
  cases i with
  | mov dst src =>
    obtain rfl : dst = d := by simpa [destination] using hd
    obtain ⟨v, hv, rfl⟩ | ⟨c, -, rfl⟩ := settle_next _ _ _ h
    · obtain ⟨x, -, hw⟩ := (move_ok _ _ _ _).mp hv
      exact .inl ⟨x, v, hw, rfl⟩
    · exact .inr ⟨c, rfl⟩
  | add dst src | sub dst src | mul dst src | div dst src =>
    obtain rfl : dst = d := by simpa [destination] using hd
    obtain ⟨v, hv, rfl⟩ | ⟨c, -, rfl⟩ := settle_next _ _ _ h
    · obtain ⟨a, b, x, -, -, -, hw⟩ := (alu_ok _ _ _ _ _).mp hv
      exact .inl ⟨x, v, hw, rfl⟩
    · exact .inr ⟨c, rfl⟩
  | _ => simp [destination] at hd

/-- What LOOP and the unassigned words do: run as LOOP, or, under `Illegal`, an unassigned word faults. -/
theorem exec_jump_cases (i : Instr) (s : State) (t : Field) (ht : jumpTarget i = some t) :
    (runsAsLoop s.policy i = true ∧ exec i s = .next (loopNext t s)) ∨
      (runsAsLoop s.policy i = false ∧ s.policy = .illegal ∧
        exec i s = .next (raiseFault (.illegalOpcode (instrFields i).opcode) s)) := by
  cases i with
  | mov _ _ | add _ _ | sub _ _ | mul _ _ | div _ _ => simp [jumpTarget] at ht
  | loop t' x =>
    obtain rfl : t' = t := by simpa [jumpTarget] using ht
    exact .inl ⟨rfl, rfl⟩
  | unassigned6 t' x | unassigned7 t' x | unassigned8 t' x | unassigned9 t' x | unassignedA t' x
  | unassignedB t' x | unassignedC t' x | unassignedD t' x | unassignedE t' x | unassignedF t' x =>
    obtain rfl : t' = t := by simpa [jumpTarget] using ht
    cases hp : s.policy with
    | asLoop => exact .inl ⟨rfl, congrArg _ (unassigned_asLoop _ _ _ hp)⟩
    | illegal => exact .inr ⟨rfl, rfl, congrArg _ (unassigned_illegal _ _ _ hp)⟩

/-- What a step can do when it answers a next state: halt past the program's end, or execute the fetched word. -/
theorem step_next (s t : State) (h : step s = .next t) :
    s.st = .running ∧
      ((fetchWord s = none ∧ t = haltRun s) ∨
        (∃ w, fetchWord s = some w ∧ exec (decode w) (loadIr w s) = .next t)) := by
  unfold step at h
  cases hs : s.st with
  | halted => simp [hs] at h
  | faulted r => simp [hs] at h
  | running =>
    refine ⟨rfl, ?_⟩
    simp only [hs] at h
    cases hf : fetchWord s with
    | none =>
      simp only [hf, Host.Outcome.next.injEq] at h
      exact .inl ⟨rfl, h.symm⟩
    | some w =>
      simp only [hf] at h
      exact .inr ⟨w, rfl, h⟩

/-- One more step at the front of a run. -/
theorem runSteps_succ (k : Nat) (s t : State) (h : step s = .next t) : runSteps (k + 1) s = runSteps k t := by
  simp [runSteps, h]

/-- A run of one more step that answers a next state ran one step first. -/
theorem runSteps_succ_next (k : Nat) (s u : State) (h : runSteps (k + 1) s = .next u) :
    ∃ t, step s = .next t ∧ runSteps k t = .next u := by
  unfold runSteps at h
  cases hs : step s with
  | next t => exact ⟨t, rfl, by simpa [hs] using h⟩
  | fault r => simp [hs] at h
  | refused r => simp [hs] at h

/-- What every step keeps, every run keeps. -/
theorem runSteps_induction (P : State → Prop) (keep : ∀ s t, P s → step s = .next t → P t) :
    ∀ k s t, P s → runSteps k s = .next t → P t := by
  intro k
  induction k with
  | zero =>
    intro s t hs h
    exact Host.Outcome.next.inj h ▸ hs
  | succ k ih =>
    intro s t hs h
    obtain ⟨u, hu, hk⟩ := runSteps_succ_next k s t h
    exact ih u t (keep s u hs hu) hk

/-- The host's run of the core is the run of the statements. -/
theorem runSteps_eq_run (k : Nat) (s : State) : runSteps k s = Host.Core.run Sys2Proof.core k s := by
  induction k generalizing s with
  | zero => rfl
  | succ k ih =>
    cases h : step s with
    | next t =>
      have h' : Sys2Proof.core.step s = .next t := h
      simp only [runSteps, Host.Core.run, h, h']
      exact ih t
    | fault r =>
      have h' : Sys2Proof.core.step s = .fault r := h
      simp only [runSteps, Host.Core.run, h, h']
      rfl
    | refused r =>
      have h' : Sys2Proof.core.step s = .refused r := h
      simp only [runSteps, Host.Core.run, h, h']
      rfl

/-- The placed word is the one at its index. -/
theorem placeWord_getElem? (ws : List Word) (k : Nat) (w : Word) : (placeWord ws k w)[k]? = some w := by
  induction k generalizing ws with
  | zero => cases ws <;> rfl
  | succ k ih => cases ws <;> simpa [placeWord] using ih _

end Sys2Proof.Machine
end

