-- ==== Sys2Proof/Laws/PerInstr.lean ====
section
/-! SUPPORT. A law of the instructions as syntax, one lemma per constructor. -/

namespace Sys2Proof.Laws.EncodedFields

/-- The word of an instruction splits into the opcode of its row of the opcode map and the codes of its operands
(R60, R61, R67). -/
def Statement (i : Instr) : Prop := splitFields (encode i) = instrFields i

theorem mov (d s : Operand) : Statement (.mov d s) := splitFields_joinFields _
theorem add (d s : Operand) : Statement (.add d s) := splitFields_joinFields _
theorem sub (d s : Operand) : Statement (.sub d s) := splitFields_joinFields _
theorem mul (d s : Operand) : Statement (.mul d s) := splitFields_joinFields _
theorem div (d s : Operand) : Statement (.div d s) := splitFields_joinFields _
theorem loop (t x : Field) : Statement (.loop t x) := splitFields_joinFields _
theorem unassigned6 (t x : Field) : Statement (.unassigned6 t x) := splitFields_joinFields _
theorem unassigned7 (t x : Field) : Statement (.unassigned7 t x) := splitFields_joinFields _
theorem unassigned8 (t x : Field) : Statement (.unassigned8 t x) := splitFields_joinFields _
theorem unassigned9 (t x : Field) : Statement (.unassigned9 t x) := splitFields_joinFields _
theorem unassignedA (t x : Field) : Statement (.unassignedA t x) := splitFields_joinFields _
theorem unassignedB (t x : Field) : Statement (.unassignedB t x) := splitFields_joinFields _
theorem unassignedC (t x : Field) : Statement (.unassignedC t x) := splitFields_joinFields _
theorem unassignedD (t x : Field) : Statement (.unassignedD t x) := splitFields_joinFields _
theorem unassignedE (t x : Field) : Statement (.unassignedE t x) := splitFields_joinFields _
theorem unassignedF (t x : Field) : Statement (.unassignedF t x) := splitFields_joinFields _

end Sys2Proof.Laws.EncodedFields
end

