-- ==== Sys2Proof/Tests/Slice0.lean ====
section
/-! SUPPORT. Tests of single steps and words, with expected results from the spec's rules and vectors
(95_test_vectors.md, named in each comment), and a witness for each statement that has hypotheses. -/

open Sys2Proof Sys2Proof.Machine

namespace Sys2Proof.Tests

/-- A running state with these registers and cells. -/
def demo (ac ecx : Value) (pc : Nat) (dm : Memory) : State :=
  { State.reset with ac := ac, ecx := ecx, pc := pc, dm := dm }

/-- A running state about to fetch word `w` as its whole program. -/
def demoRun (w : Word) (ecx : Value) (dm : Memory) : State :=
  { State.reset with ecx := ecx, dm := dm, prog := [w] }

/-- The state that an outcome answers. -/
def stateOf (o : Host.Outcome State Fault Refusal) : Option State :=
  match o with
  | .next t => some t
  | .fault _ => none
  | .refused _ => none

/-! ## WellFormed: each check refuses an ill-formed term (R62) -/

theorem test_wf_refuses_big_literal : Instr.wf (.mov (.reg .ac) (.lit 32768)) = false := by decide
theorem test_wf_refuses_big_slot : Instr.wf (.add (.var 32766) (.lit 0)) = false := by decide
theorem test_wf_refuses_either_operand : Instr.wf (.div (.lit 0) (.var 40000)) = false := by decide
theorem test_wf_accepts_the_bounds : Instr.wf (.mul (.var 32765) (.lit 32767)) = true := by decide

/-! ## Decode: words written out bit by bit from R60, R62 and R67 -/

theorem test_decode_mov : decode 0b0000_1000000000000000_0000000000010001#36 = .mov (.var 0) (.lit 17) := by decide
theorem test_decode_add : decode 0b0001_1000000000000010_1000000000000000#36 = .add (.var 2) (.var 0) := by decide
theorem test_decode_sub : decode 0b0010_1111111111111111_0000000000000001#36 = .sub (.reg .ecx) (.lit 1) := by decide
theorem test_decode_mul : decode 0b0011_1111111111111110_0000000000010011#36 = .mul (.reg .ac) (.lit 19) := by decide
theorem test_decode_div : decode 0b0100_1111111111111110_1111111111111101#36 = .div (.reg .ac) (.var 32765) := by decide
-- OD-11: the target is not classified.
theorem test_decode_loop : decode 0b0101_1000000000000000_0000000000000000#36 = .loop 0x8000#16 0#16 := by decide
theorem test_decode_unassigned6 : decode 0b0110_0000000000000101_0000000000000001#36 = .unassigned6 5#16 1#16 := by decide
theorem test_decode_unassigned7 : decode 0b0111_0000000000000101_0000000000000001#36 = .unassigned7 5#16 1#16 := by decide
theorem test_decode_unassigned8 : decode 0b1000_0000000000000101_0000000000000001#36 = .unassigned8 5#16 1#16 := by decide
theorem test_decode_unassigned9 : decode 0b1001_0000000000000101_0000000000000001#36 = .unassigned9 5#16 1#16 := by decide
theorem test_decode_unassignedA : decode 0b1010_0000000000000101_0000000000000001#36 = .unassignedA 5#16 1#16 := by decide
theorem test_decode_unassignedB : decode 0b1011_0000000000000101_0000000000000001#36 = .unassignedB 5#16 1#16 := by decide
theorem test_decode_unassignedC : decode 0b1100_0000000000000101_0000000000000001#36 = .unassignedC 5#16 1#16 := by decide
theorem test_decode_unassignedD : decode 0b1101_0000000000000101_0000000000000001#36 = .unassignedD 5#16 1#16 := by decide
theorem test_decode_unassignedE : decode 0b1110_0000000000000101_0000000000000001#36 = .unassignedE 5#16 1#16 := by decide
-- OD-2.
theorem test_decode_unassignedF : decode 0xFFFFFFFFF#36 = .unassignedF 0xFFFF#16 0xFFFF#16 := by decide
-- OD-4 to OD-10.
theorem test_classify_bounds :
    [0#16, 32767#16, 32768#16, 65533#16, 65534#16, 65535#16].map classify =
      [.lit 0, .lit 32767, .var 0, .var 32765, .reg .ac, .reg .ecx] := by decide
theorem test_tableWord_refuses_37_bits : decodeTableWord 40 (2 ^ 36) = none := by decide
-- Program A, index 7.
theorem test_parseLine_program_A : parseLine "010100000000000001010000000000000000".toList = .ok 0x500050000#36 := by decide
theorem test_parseLine_refuses_37 : parseLine (List.replicate 37 '0') = .error .notThirtySixCharacters := by decide
theorem test_parseLine_refuses_2 : parseLine (List.replicate 35 '0' ++ ['2']) = .error .notBinary := by decide

/-! ## One step each -/

-- MV-12: append from AC.
theorem test_mov_appends : stateOf (exec (.mov (.var 2) (.reg .ac)) (demo 7 0 0 [1, 2])) = some (demo 7 0 1 [1, 2, 7]) := by
  decide
-- MV-10: the read is checked before the destination.
theorem test_mov_read_fault_first :
    stateOf (step (demoRun 0x000058003#36 0 [])) = some { demoRun 0x000058003#36 0 [] with
      ir := 0x000058003#36, st := .faulted ⟨.dataReadOutOfBounds 0x8003#16 3 0, 0, 0x000058003#36⟩ } := by decide
-- MV-3: a gap.
theorem test_mov_gap_faults : (stateOf (exec (.mov (.var 2) (.lit 1)) (demo 0 0 0 [5]))).map (·.st) =
    some (.faulted ⟨.dataWriteOutOfBounds 0x8002#16 2 1, 0, 0⟩) := by decide
-- AD-2: the source is also the destination.
theorem test_add_to_itself : stateOf (exec (.add (.var 0) (.var 0)) (demo 0 0 0 [17])) = some (demo 0 0 1 [34]) := by
  decide +kernel
-- AD-3: a missing destination is read first.
theorem test_add_reads_destination : (stateOf (exec (.add (.var 0) (.lit 1)) (demo 0 0 0 []))).map (·.st) =
    some (.faulted ⟨.dataReadOutOfBounds 0x8000#16 0 0, 0, 0⟩) := by decide
-- SB-1 and SB-4.
theorem test_sub_goes_negative : stateOf (exec (.sub (.reg .ac) (.lit 5)) (demo 3 0 0 [])) = some (demo (-2) 0 1 []) := by
  decide +kernel
theorem test_sub_fraction : stateOf (exec (.sub (.reg .ac) (.lit 1)) (demo (1 / 2) 0 0 [])) = some (demo (-1 / 2) 0 1 []) := by
  decide +kernel
-- MU-1 and MU-4.
theorem test_mul_is_unbounded :
    stateOf (exec (.mul (.reg .ac) (.reg .ac)) (demo 32767 0 0 [])) = some (demo 1073676289 0 1 []) := by decide +kernel
theorem test_mul_fraction : stateOf (exec (.mul (.reg .ac) (.lit 2)) (demo (7 / 2) 0 0 [])) = some (demo 7 0 1 []) := by
  decide +kernel
-- DV-6 and DV-7.
theorem test_div_is_exact : stateOf (exec (.div (.reg .ac) (.lit 2)) (demo (-3) 0 0 [])) = some (demo (-3 / 2) 0 1 []) := by
  decide +kernel
theorem test_div_zero_before_destination : (stateOf (exec (.div (.lit 9) (.lit 0)) (demo 0 0 0 []))).map (·.st) =
    some (.faulted ⟨.divideByZero 9, 0, 0⟩) := by decide +kernel
-- R141's codes, and the address of R42.
theorem test_fault_codes :
    [FaultCause.dataReadOutOfBounds 0 0 0, .dataWriteOutOfBounds 0 0 0, .divideByZero 0, .illegalDestination 0,
      .illegalOpcode 6].map faultCode = [1, 2, 3, 4, 5] ∧
      faultAddress (.dataReadOutOfBounds 0x8003#16 3 0) = some 32771 := by decide
-- CT-5 and CT-4.
theorem test_loop_on_a_fraction : stateOf (exec (.loop 5#16 0#16) (demo 0 (1 / 2) 7 [])) = some (demo 0 (1 / 2) 5 []) := by
  decide +kernel
theorem test_loop_falls_through_below_zero :
    stateOf (exec (.loop 5#16 0#16) (demo 0 (-1) 7 [])) = some (demo 0 (-1) 8 []) := by decide +kernel
-- CT-10 and CT-11.
theorem test_unassigned_illegal : (stateOf (exec (.unassignedA 0#16 0#16) (demo 0 1 1 []))).map (·.st) =
    some (.faulted ⟨.illegalOpcode 10#4, 1, 0⟩) := by decide
theorem test_unassigned_asLoop :
    (stateOf (exec (.unassignedA 0#16 0#16) { demo 0 1 1 [] with policy := .asLoop })).map (·.pc) = some 0 := by
  decide +kernel
-- CT-1: the empty program halts at once.
theorem test_empty_program_halts : stateOf (step State.reset) = some { State.reset with st := .halted } := by decide

/-! ## The assembler (AS-1 to AS-12) -/

theorem test_assemble_allocates_operand1_first :
    Assembler.assemble ["MOV a, b".toList] = .ok [0x080008001#36] := by decide
theorem test_assemble_last_label_wins :
    Assembler.assemble ["MOV ECX, 1".toList, "p:".toList, "MOV AC, 1".toList, "q:".toList, "LOOP".toList] =
      .ok [0x0FFFF0001#36, 0x0FFFE0001#36, 0x500020000#36] := by decide
theorem test_assemble_errors :
    ["LOOP", "MOV a, 40000", "FOO a, 1", "MOV A1, 1", "MOV a"].map (fun l => Assembler.assemble [l.toList]) =
      [.error .noActiveLabel, .error .literalOverflow, .error .unknownOperator, .error .unresolvableOperand,
        .error .operandCount] := by decide
theorem test_assemble_accepts_literal_destination : Assembler.assemble ["MOV 5, 1".toList] = .ok [0x000050001#36] := by
  decide

/-! ## Witnesses: a state and operands that meet each statement's hypotheses -/

theorem witness_StepRunsTheDecodedInstruction :
    (demoRun 0x500000000#36 1 []).st = .running ∧ (demoRun 0x500000000#36 1 []).prog[0]? = some 0x500000000#36 := by decide
theorem witness_FetchPastTheProgramHalts : State.reset.st = .running ∧ State.reset.prog.length ≤ State.reset.pc := by decide
theorem witness_EndedRunsTakeNoStep :
    (haltRun State.reset).st = .halted ∧
      (raiseFault (.divideByZero 1) State.reset).st = .faulted ⟨.divideByZero 1, 0, 0⟩ := by decide
theorem witness_EveryStepKeepsTheInvariant :
    Inv (demoRun 0x500000000#36 1 []) ∧ step (demoRun 0x500000000#36 1 []) =
      .next { demoRun 0x500000000#36 1 [] with ir := 0x500000000#36 } := by
  refine ⟨⟨by decide, by decide, nofun, nofun⟩, ?_⟩
  have h : loopRedirects (loadIr 0x500000000#36 (demoRun 0x500000000#36 1 [])) = true := by decide +kernel
  show Host.Outcome.next (loopNext 0#16 (loadIr 0x500000000#36 (demoRun 0x500000000#36 1 []))) = _
  simp only [loopNext, h, if_true]
  rfl
theorem witness_RunEnds_and_RunningAnswers : (demoRun 0x080000005#36 0 []).st = .running := by decide
theorem witness_OnlyRunningOffTheEndHalts :
    stateOf (exec (.mov (.reg .ac) (.lit 1)) State.reset) = some (demo 1 0 1 []) ∧
      stateOf (step State.reset) = some (haltRun State.reset) := by decide
theorem witness_NoRunWritesProgramMemory_and_Policy :
    stateOf (runSteps 2 (demoRun 0x080000005#36 0 [])) =
      some { demoRun 0x080000005#36 0 [5] with pc := 1, ir := 0x080000005#36, st := .halted } := by decide
theorem witness_ReadBackIsTheFinalState : State.reset.st = .running ∧ (haltRun State.reset).st ≠ .running := by decide
theorem witness_PlacedWordIsWhatStepRuns : decodeTableWord 40 0x3FFFE0013 = some (.mul (.reg .ac) (.lit 19)) := by decide
theorem witness_DecodeOfEncodeIsTheInstruction : Instr.wf (.mov (.var 32765) (.lit 32767)) = true := by decide
theorem witness_ClassifyPartitionsOperandValues :
    (32767#16).toNat ≤ 32767 ∧ 32768 ≤ (32768#16).toNat ∧ (65533#16).toNat ≤ 65533 ∧ (65534#16).toNat = 65534 ∧
      (65535#16).toNat = 65535 := by decide
theorem witness_OpcodeFieldSelectsTheInstruction :
    (List.range 16).all (fun n => ((BitVec.ofNat 36 (n * 2 ^ 32)).extractLsb' 32 4 == BitVec.ofNat 4 n)) = true := by decide
theorem witness_SerialFormAndWordsCorrespond : parseLine (List.replicate 36 '1') = .ok 0xFFFFFFFFF#36 ∧ 35 < 36 := by decide
theorem witness_ImageIsLoadedOrRefused : loadAndReset [List.replicate 36 '0'] .illegal = .ok (resetWith [0] .illegal) := by decide
theorem witness_ReadOperandResolvesTheFourRanges :
    (32767#16).toNat ≤ 32767 ∧ (0xFFFD#16).toNat = 32768 + 32765 ∧ 32765 ≤ 32765 ∧ (0xFFFE#16).toNat = 65534 ∧
      (0xFFFF#16).toNat = 65535 := by decide
theorem witness_StorageAddressMapsToItsSlot : (0x8000#16).toNat = 32768 + 0 ∧ (demo 0 0 0 [4]).dm[0]? = some 4 := by decide
theorem witness_MemoryAccessesKeepTheBounds :
    let m : Memory := [4]
    0 < m.length ∧ m.length ≤ 1 ∧ 1 = m.length ∧ m.length < 2 := by decide
theorem witness_ReadAfterWriteGivesTheValueWritten :
    memWrite [4] 1 5 = .ok [4, 5] ∧ (0 ≠ 1) ∧ Memory.wf [4] ∧ 1 ≤ 32765 := by decide
theorem witness_OnlyMovAppendsACell :
    (stateOf (step (demoRun 0x080000005#36 0 []))).map (·.dm) = some [5] ∧
      (stateOf (step (demoRun 0x080000005#36 0 [4]))).map (·.dm) = some [5] := by decide
theorem witness_MovWritesTheSourceValue :
    readOperand (.var 0) (demo 0 0 0 [4]) = .ok 4 ∧ 0 < (demo 0 0 0 [4]).dm.length ∧ (demo 0 0 0 [4]).dm.length ≤ 32765 := by
  decide
theorem witness_MovFaultsInOrder :
    (demo 0 0 0 []).dm.length ≤ 0 ∧ readOperand (.lit 1) (demo 0 0 0 []) = .ok 1 ∧ (demo 0 0 0 []).dm.length < 1 := by decide
theorem witness_MovToItselfChangesOnlyThePc :
    (∀ c, Operand.var 0 ≠ .lit c) ∧ readOperand (.var 0) (demo 0 0 0 [4]) = .ok 4 :=
  ⟨nofun, by decide⟩
/-- ADD, SUB and MUL: a readable source and an existing cell. -/
theorem witness_AddSubMulWriteTheirResult :
    readOperand (.reg .ecx) (demo 0 3 0 [4]) = .ok 3 ∧ (demo 0 3 0 [4]).dm[0]? = some 4 := by decide
theorem witness_DivWritesTheExactQuotient :
    readOperand (.lit 2) (demo 7 0 0 [4]) = .ok 2 ∧ (2 : Value) ≠ 0 ∧ (demo 7 0 0 [4]).dm[0]? = some 4 := by decide
theorem witness_ArithmeticReadsFaultFirst :
    (demo 0 0 0 []).dm.length ≤ 0 ∧ readOperand (.lit 4) (demo 0 0 0 []) = .ok 4 := by decide
theorem witness_DivideByZeroThenIllegalDestination :
    readOperand (.lit 9) (demo 0 0 0 []) = .ok 9 ∧ readOperand (.lit 0) (demo 0 0 0 []) = .ok 0 ∧
      readOperand (.lit 3) (demo 0 0 0 []) = .ok 3 ∧ (3 : Value) ≠ 0 := by decide
-- DV-11.
theorem witness_MulUndoesDiv :
    stateOf (exec (.div (.reg .ac) (.lit 3)) (demo 1 0 0 [])) = some (demo (1 / 3) 0 1 []) ∧
      stateOf (exec (.mul (.reg .ac) (.lit 3)) (demo (1 / 3) 0 1 [])) = some (demo 1 0 2 []) := by decide +kernel
theorem witness_LoopRedirectsWhileEcxIsPositive : 0 < (demo 0 1 0 []).ecx ∧ (demo 0 0 0 []).ecx ≤ 0 := by decide +kernel
theorem witness_LoopIgnoresItsLowBits :
    (0x500050000#36).extractLsb' 16 20 = (0x50005FFFF#36).extractLsb' 16 20 ∧
      (0x500050000#36).extractLsb' 32 4 = 0b0101#4 ∧
      (0x600050000#36).extractLsb' 16 20 = (0x60005FFFF#36).extractLsb' 16 20 ∧
      6 ≤ ((0x600050000#36).extractLsb' 32 4).toNat ∧ { State.reset with policy := .asLoop }.policy = .asLoop := by
  decide
theorem witness_LoopPastTheProgramHaltsNext :
    (demoRun 0x500010000#36 1 []).prog[0]? = some 0x500010000#36 ∧ decode 0x500010000#36 = .loop 1#16 0#16 ∧
      0 < (demoRun 0x500010000#36 1 []).ecx ∧ (demoRun 0x500010000#36 1 []).prog.length ≤ (1#16).toNat := by decide +kernel
theorem witness_LoopToItselfNeverEnds :
    (demoRun 0x500000000#36 1 []).prog[0]? = some 0x500000000#36 ∧ decode 0x500000000#36 = .loop 0#16 0#16 ∧
      (0#16).toNat = (demoRun 0x500000000#36 1 []).pc ∧ 0 < (demoRun 0x500000000#36 1 []).ecx := by decide +kernel
theorem witness_UnassignedOpcodePolicies :
    State.reset.policy = .illegal ∧ { State.reset with policy := .asLoop }.policy = .asLoop ∧
      0 < (demo 0 1 0 []).ecx ∧ State.reset.ecx ≤ 0 := by decide +kernel
theorem witness_DataInstructionsWriteOnlyTheirDestination :
    stateOf (exec (.mov (.var 0) (.lit 5)) (demo 1 2 0 [4])) = some (demo 1 2 1 [5]) ∧
      Operand.var 0 ≠ .reg .ac ∧ Operand.var 0 ≠ .var 1 := by decide
theorem witness_LoopAndUnassignedWriteOnlyThePc :
    jumpTarget (.unassigned6 5#16 0#16) = some 5#16 ∧
      runsAsLoop .illegal (.unassigned6 5#16 0#16) = false ∧ runsAsLoop .asLoop (.unassigned6 5#16 0#16) = true ∧
      (stateOf (exec (.unassigned6 5#16 0#16) (demo 0 0 3 []))).map (·.pc) = some 3 := by decide
theorem witness_FaultsArePrecise_and_BelongToTheirInstructions :
    (demo 0 0 0 []).st = .running ∧
      (stateOf (exec (.mov (.lit 5) (.lit 1)) (demo 0 0 0 []))).map (·.st) =
        some (.faulted ⟨.illegalDestination 5#16, 0, 0⟩) := by decide
theorem witness_PcOnlyAdvancesOrIsRedirected :
    stateOf (exec (.loop 5#16 0#16) (demo 0 1 0 [])) = some (demo 0 1 5 []) ∧
      stateOf (exec (.loop 5#16 0#16) (demo 0 1 9 [])) = some (demo 0 1 5 []) := by decide +kernel
-- AS-4 with a second label marker, which overwrites the first (R80): its one preceding instruction line is the target.
theorem witness_AssembledWords_and_Loops :
    Assembler.assemble ["a:".toList, "MOV ECX, 3".toList, "b:".toList, "SUB ECX, 1".toList, "LOOP".toList] =
        .ok [0x0FFFF0003#36, 0x2FFFF0001#36, 0x500010000#36] ∧
      jumpTarget (decode 0x500010000#36) = some 1#16 ∧
      ["a:".toList, "MOV ECX, 3".toList, "b:".toList, "SUB ECX, 1".toList, "LOOP".toList].map Assembler.parseAsmLine =
        [.label, .instr "MOV".toList ["ECX".toList, "3".toList]] ++
          .label :: ([.instr "SUB".toList ["ECX".toList, "1".toList]] ++ .instr ['L', 'O', 'O', 'P'] [] :: []) ∧
      .label ∉ [Assembler.AsmLine.instr "SUB".toList ["ECX".toList, "1".toList]] := by decide
theorem witness_SymbolTableOnlyGrowsAtItsEnd :
    (Assembler.assembleFrom { symbols := [['x']], target := none, emitted := [] }
        [.instr ['M', 'O', 'V'] [['y'], ['x']]]) =
      .ok { symbols := [['x'], ['y']], target := none, emitted := [.mov (.var 1) (.var 0)] } ∧
    ([['x']] : Assembler.Symbols).Nodup := by decide
theorem witness_OperandTokensEncodeAsTheirForms :
    Assembler.isDecimal "32767".toList = true ∧ Assembler.decimalValue "32767".toList = 32767 ∧
      Assembler.isVariableName "x1".toList = true ∧ "x1".toList ∉ ([] : Assembler.Symbols) ∧
      (["x1".toList] : Assembler.Symbols)[0]? = some "x1".toList ∧ (["x1".toList] : Assembler.Symbols).Nodup := by decide
theorem witness_AssemblerErrorsHaveTheirCauses :
    Assembler.mnemonicNamed "FOO".toList = none ∧ Assembler.mnemonicNamed "MOV".toList = some .mov ∧
      Assembler.mnemonicNamed "LOOP".toList = some .loop ∧ tokenError [] "32768".toList .literalOverflow ∧
      tokenError [] "A1".toList .unresolvableOperand ∧
      Assembler.resolveOperand [] "x".toList = .ok (.var 0, ["x".toList]) := by
  refine ⟨by decide, by decide, by decide, ⟨by decide, by decide⟩, ⟨by decide, by decide, by decide⟩, by decide⟩
-- R83, R84: a LOOP target of 65536 overflows, and 65535 does not.
theorem witness_LoopTargetOverflow :
    Assembler.assembleLine { symbols := [], target := some 65536, emitted := [] } (.instr "LOOP".toList []) =
        .error .literalOverflow ∧
      Assembler.assembleLine { symbols := [], target := some 65535, emitted := [] } (.instr "LOOP".toList []) =
        .ok { symbols := [], target := some 65535, emitted := [.loop 0xFFFF#16 0#16] } := by decide
/-- A line in error after a line that assembles: no image. -/
theorem witness_AssemblerErrorAborts :
    [("MOV x, 1".toList), "FOO x, 1".toList].map Assembler.parseAsmLine =
        [.instr "MOV".toList ["x".toList, "1".toList]] ++ .instr "FOO".toList ["x".toList, "1".toList] :: [] ∧
      Assembler.assembleFrom Assembler.AsmState.start [.instr "MOV".toList ["x".toList, "1".toList]] =
        .ok { symbols := ["x".toList], target := none, emitted := [.mov (.var 0) (.lit 1)] } ∧
      Assembler.assembleLine { symbols := ["x".toList], target := none, emitted := [.mov (.var 0) (.lit 1)] }
        (.instr "FOO".toList ["x".toList, "1".toList]) = .error .unknownOperator := by decide
theorem witness_VariableSpaceExhausted :
    tokenError (List.replicate 32766 ['y']) ['x'] .variableSpaceExhausted := by
  refine ⟨by decide, ?_, List.length_replicate⟩
  intro h
  exact absurd (List.eq_of_mem_replicate h) (by decide)
-- Program A.
theorem witness_ProgramsThatWriteInOrderStayInBounds :
    writesInOrder 0 0 ([0x080000011#36, 0x080018000#36, 0x180010002#36, 0x080020000#36, 0x0FFFF8001#36, 0x180028000#36,
      0x2FFFF0001#36, 0x500050000#36].map decode) = true ∧
    writesInOrder 0 0 ([0x080000011#36, 0x600000000#36].map decode) = true := by decide

end Sys2Proof.Tests
end

/-! PROOFS. The role of PC (R25): who writes it, and that nothing reads it as data. -/

namespace Sys2Proof.Machine

/-! ## What writes PC -/

/-- WriteOperand reaches AC, ECX and DM alone: PC has no operand code (R20). -/
theorem writeOperand_ok_pc (o : Operand) (x : Value) (s u : State) (h : writeOperand o x s = .ok u) :
    u.pc = s.pc := by
  obtain ⟨r, -, rfl⟩ | ⟨i, m, -, -, rfl⟩ := writeOperand_ok o x s u h
  · exact writeReg_pc s r x
  · rfl

/-- A data instruction that raises nothing takes the sequential advance (R123). -/
theorem exec_data_pc (i : Instr) (s u : State) (d : Operand) (hd : destination i = some d)
    (h : exec i s = .next u) (hu : u.st = .running) : u.pc = s.pc + 1 := by
  obtain ⟨x, v, hw, rfl⟩ | ⟨c, rfl⟩ := exec_data_cases i s u d hd h
  · rw [advancePc_pc, writeOperand_ok_pc d x s v hw]
  · cases hu

/-- LOOP goes to the next word or to its target (R124). -/
theorem loopNext_pc (t : Field) (s : State) :
    (loopNext t s).pc = s.pc + 1 ∨ (loopNext t s).pc = t.toNat := by
  obtain ⟨-, e⟩ | ⟨-, e⟩ := loopNext_cases t s
  · exact .inr (by rw [e, redirectPc_pc])
  · exact .inl (by rw [e, advancePc_pc])

/-- A jump word that leaves the core running runs as LOOP, and so advances or redirects PC (R124, R127). -/
theorem exec_jump_pc (i : Instr) (s u : State) (t : Field) (ht : jumpTarget i = some t)
    (h : exec i s = .next u) (hu : u.st = .running) :
    u.pc = s.pc + 1 ∨ (runsAsLoop s.policy i = true ∧ u.pc = t.toNat) := by
  obtain ⟨hl, he⟩ | ⟨-, -, he⟩ := exec_jump_cases i s t ht
  · obtain rfl := Host.Outcome.next.inj (he.symm.trans h)
    exact (loopNext_pc t s).imp_right (⟨hl, ·⟩)
  · obtain rfl := Host.Outcome.next.inj (he.symm.trans h)
    cases hu

/-! ## Nothing reads PC as data

`setPc` changes PC alone and `dataPart` is all that an operand can name; each routine of a data instruction commutes
with `setPc`, and each end of an instruction has a `dataPart` that does not depend on PC. -/

/-- The state with another PC. -/
def setPc (p : Nat) (s : State) : State := { s with pc := p }

@[simp] theorem setPc_dm (p : Nat) (s : State) : (setPc p s).dm = s.dm := rfl

/-- AC, ECX and DM, the places that an operand can name (R20, R62). -/
def dataPart (s : State) : Value × Value × Memory := (s.ac, s.ecx, s.dm)

@[simp] theorem dataPart_setPc (p : Nat) (s : State) : dataPart (setPc p s) = dataPart s := rfl
@[simp] theorem dataPart_advancePc (s : State) : dataPart (advancePc s) = dataPart s := rfl
@[simp] theorem dataPart_redirectPc (t : Field) (s : State) : dataPart (redirectPc t s) = dataPart s := rfl
@[simp] theorem dataPart_raiseFault (c : FaultCause) (s : State) : dataPart (raiseFault c s) = dataPart s := rfl

theorem dataPart_eq_iff (s u : State) : dataPart s = dataPart u ↔ s.ac = u.ac ∧ s.ecx = u.ecx ∧ s.dm = u.dm := by
  simp [dataPart]

@[simp] theorem readReg_setPc (r : DataReg) (p : Nat) (s : State) : readReg r (setPc p s) = readReg r s := by
  cases r <;> rfl

theorem writeReg_setPc (r : DataReg) (x : Value) (p : Nat) (s : State) :
    writeReg r x (setPc p s) = setPc p (writeReg r x s) := by
  cases r <;> rfl

@[simp] theorem readOperand_setPc (o : Operand) (p : Nat) (s : State) :
    readOperand o (setPc p s) = readOperand o s := by
  cases o <;> simp

/-- The routine commutes with a change of PC: it neither reads PC nor writes it, and raises the same faults. -/
def IgnoresPc (f : State → Except FaultCause State) : Prop := ∀ p s, f (setPc p s) = (f s).map (setPc p)

theorem writeOperand_ignoresPc (o : Operand) (x : Value) : IgnoresPc (writeOperand o x) := by
  intro p s
  cases o with
  | lit c => rfl
  | reg r => simp only [writeOperand_reg, writeReg_setPc, Except.map]
  | var i =>
    simp only [writeOperand, setPc_dm]
    cases memWrite s.dm i x <;> rfl

theorem move_ignoresPc (dst src : Operand) : IgnoresPc (move dst src) := by
  intro p s
  simp only [move, readOperand_setPc]
  cases readOperand src s with
  | error c => rfl
  | ok x => exact writeOperand_ignoresPc dst x p s

theorem alu_ignoresPc (op : Value → Value → Except FaultCause Value) (dst src : Operand) :
    IgnoresPc (alu op dst src) := by
  intro p s
  simp only [alu, readOperand_setPc]
  cases readOperand dst s with
  | error c => rfl
  | ok a =>
    cases readOperand src s with
    | error c => rfl
    | ok b =>
      cases h : op a b with
      | error c => simp [h, Except.map]
      | ok x => simpa [h] using writeOperand_ignoresPc dst x p s

/-- A data instruction whose routine ignores PC ends with the same data for every PC. -/
theorem settle_dataPart_setPc (f : State → Except FaultCause State) (hf : IgnoresPc f) (p : Nat) (s u v : State)
    (hu : settle s (f s) = .next u) (hv : settle (setPc p s) (f (setPc p s)) = .next v) :
    dataPart v = dataPart u := by
  rw [hf p s] at hv
  cases hr : f s with
  | error c => rw [hr] at hu hv; cases hu; cases hv; rfl
  | ok t => rw [hr] at hu hv; cases hu; cases hv; rfl

theorem loopNext_dataPart (t : Field) (s : State) : dataPart (loopNext t s) = dataPart s := by
  obtain ⟨-, e⟩ | ⟨-, e⟩ := loopNext_cases t s <;> simp [e]

/-- A jump word stores nothing, whether it runs as LOOP or faults (R124, R127, R143). -/
theorem exec_jump_dataPart (i : Instr) (s u : State) (t : Field) (ht : jumpTarget i = some t)
    (h : exec i s = .next u) : dataPart u = dataPart s := by
  obtain ⟨-, he⟩ | ⟨-, -, he⟩ := exec_jump_cases i s t ht
  · obtain rfl := Host.Outcome.next.inj (he.symm.trans h)
    exact loopNext_dataPart t s
  · obtain rfl := Host.Outcome.next.inj (he.symm.trans h)
    exact dataPart_raiseFault _ s

/-- A data instruction is the end of a routine that ignores PC. -/
theorem exec_data_eq_settle (i : Instr) (d : Operand) (hd : destination i = some d) :
    ∃ f, IgnoresPc f ∧ ∀ s, exec i s = settle s (f s) := by
  cases i with
  | mov dst src => exact ⟨_, move_ignoresPc dst src, fun _ => rfl⟩
  | add dst src => exact ⟨_, alu_ignoresPc addOp dst src, fun _ => rfl⟩
  | sub dst src => exact ⟨_, alu_ignoresPc subOp dst src, fun _ => rfl⟩
  | mul dst src => exact ⟨_, alu_ignoresPc mulOp dst src, fun _ => rfl⟩
  | div dst src => exact ⟨_, alu_ignoresPc divOp dst src, fun _ => rfl⟩
  | _ => cases hd

/-- PC does not interfere with data: from states that differ in PC alone, an instruction leaves the same AC, ECX and
DM. -/
theorem exec_dataPart_setPc (i : Instr) (p : Nat) (s u v : State) (hu : exec i s = .next u)
    (hv : exec i (setPc p s) = .next v) : dataPart v = dataPart u := by
  obtain ⟨d, hd, -⟩ | ⟨t, ht, -⟩ := destination_or_jumpTarget i
  · obtain ⟨f, hf, he⟩ := exec_data_eq_settle i d hd
    exact settle_dataPart_setPc f hf p s u v (he s ▸ hu) (he (setPc p s) ▸ hv)
  · calc dataPart v = dataPart (setPc p s) := exec_jump_dataPart i _ v t ht hv
      _ = dataPart s := dataPart_setPc p s
      _ = dataPart u := (exec_jump_dataPart i s u t ht hu).symm

/-- Settles O46: a data instruction advances PC and a jump word redirects it only as LOOP; and exec commutes with a
change of PC, as far as AC, ECX and DM go. -/
theorem pcOnlyAdvancesOrIsRedirected : Obligations.PcOnlyAdvancesOrIsRedirected := by
  unfold Obligations.PcOnlyAdvancesOrIsRedirected
  refine ⟨fun i s u _ h hu => ?_, fun i s u v p hu hv => ?_⟩
  · obtain ⟨d, hd, -⟩ | ⟨t, ht, -⟩ := destination_or_jumpTarget i
    · exact .inl (exec_data_pc i s u d hd h hu)
    · exact (exec_jump_pc i s u t ht h hu).imp_right fun ⟨hl, hp⟩ => ⟨hl, t, ht, hp⟩
  · exact (dataPart_eq_iff v u).mp (exec_dataPart_setPc i p s u v hu hv)

end Sys2Proof.Machine

/-! PROOFS. Memory (R45, R51, R54): what a field denotes as a source or a destination, and that no run writes program
memory. -/

namespace Sys2Proof

/-! ## The four ranges of an operand field (R62) -/

theorem classify_of_constant (v : Field) (h : v.toNat ≤ 32767) : classify v = .lit v.toNat := by
  simp [classify, h]

theorem classify_of_storageAddress (v : Field) (i : Nat) (h : v.toNat = 32768 + i) (hi : i ≤ 32765) :
    classify v = .var i := by
  have past : ¬ 32768 + i ≤ 32767 := by omega
  have within : 32768 + i ≤ 65533 := by omega
  simp [classify, h, past, within]

theorem classify_of_accumulatorCode (v : Field) (h : v.toNat = 65534) : classify v = .reg .ac := by
  simp [classify, h]

theorem classify_of_loopCounterCode (v : Field) (h : v.toNat = 65535) : classify v = .reg .ecx := by
  simp [classify, h]

end Sys2Proof

namespace Sys2Proof.Machine

/-! ## Operands as sources and destinations -/

/-- Settles O21: each range classifies as one operand form, and each form has its own read. -/
theorem readOperandResolvesTheFourRanges : Obligations.ReadOperandResolvesTheFourRanges := by
  unfold Obligations.ReadOperandResolvesTheFourRanges
  refine fun v s => ⟨fun h => ?_, fun i h hi => ?_, fun h => ?_, fun h => ?_⟩
  · rw [classify_of_constant v h, readOperand_lit]
  · rw [classify_of_storageAddress v i h hi, readOperand_var]
  · rw [classify_of_accumulatorCode v h, readOperand_reg, readReg_ac]
  · rw [classify_of_loopCounterCode v h, readOperand_reg, readReg_ecx]

/-- A write to an existing cell sets that cell alone. -/
theorem writeOperand_var_of_lt (i : Nat) (x : Value) (s : State) (h : i < s.dm.length) :
    writeOperand (.var i) x s = .ok { s with dm := s.dm.set i x } := by
  simp [writeOperand, memWrite_of_lt s.dm i x h]

/-- Settles O22: the address classifies as its slot, and a cell that holds a value lies below the length. -/
theorem storageAddressMapsToItsSlot : Obligations.StorageAddressMapsToItsSlot := by
  unfold Obligations.StorageAddressMapsToItsSlot
  intro v i s x y h hi hx
  have hlt : i < s.dm.length := (List.getElem?_eq_some_iff.mp hx).1
  rw [classify_of_storageAddress v i h hi]
  exact ⟨(memRead_ok_iff s.dm i x).mpr hx, writeOperand_var_of_lt i y s hlt⟩

/-! ## The parameters of the step

PROG and the policy stand in the state, but every routine leaves them as they are (R33). -/

/-- The two parameters of the step (R33). -/
def parameters (s : State) : List Word × UnassignedOpcodePolicy := (s.prog, s.policy)

@[simp] theorem parameters_advancePc (s : State) : parameters (advancePc s) = parameters s := rfl
@[simp] theorem parameters_redirectPc (t : Field) (s : State) : parameters (redirectPc t s) = parameters s := rfl
@[simp] theorem parameters_raiseFault (c : FaultCause) (s : State) : parameters (raiseFault c s) = parameters s := rfl
@[simp] theorem parameters_loadIr (w : Word) (s : State) : parameters (loadIr w s) = parameters s := rfl
@[simp] theorem parameters_haltRun (s : State) : parameters (haltRun s) = parameters s := rfl

theorem parameters_eq_iff (s t : State) : parameters s = parameters t ↔ s.prog = t.prog ∧ s.policy = t.policy := by
  simp [parameters]

/-- No operand names a parameter: WriteOperand reaches AC, ECX and DM alone (R62). -/
theorem writeOperand_ok_parameters (o : Operand) (x : Value) (s u : State) (h : writeOperand o x s = .ok u) :
    parameters u = parameters s := by
  obtain ⟨r, -, rfl⟩ | ⟨i, m, -, -, rfl⟩ := writeOperand_ok o x s u h
  · exact (parameters_eq_iff _ _).mpr ⟨writeReg_prog s r x, writeReg_policy s r x⟩
  · rfl

theorem loopNext_parameters (t : Field) (s : State) : parameters (loopNext t s) = parameters s := by
  obtain ⟨-, e⟩ | ⟨-, e⟩ := loopNext_cases t s <;> simp [e]

theorem exec_parameters (i : Instr) (s u : State) (h : exec i s = .next u) : parameters u = parameters s := by
  obtain ⟨d, hd, -⟩ | ⟨t, ht, -⟩ := destination_or_jumpTarget i
  · obtain ⟨x, v, hw, rfl⟩ | ⟨c, rfl⟩ := exec_data_cases i s u d hd h
    · exact (parameters_advancePc v).trans (writeOperand_ok_parameters d x s v hw)
    · exact parameters_raiseFault c s
  · obtain ⟨-, he⟩ | ⟨-, -, he⟩ := exec_jump_cases i s t ht
    · obtain rfl := Host.Outcome.next.inj (he.symm.trans h)
      exact loopNext_parameters t s
    · obtain rfl := Host.Outcome.next.inj (he.symm.trans h)
      exact parameters_raiseFault _ s

theorem step_parameters (s t : State) (h : step s = .next t) : parameters t = parameters s := by
  obtain ⟨-, ⟨-, rfl⟩ | ⟨w, -, he⟩⟩ := step_next s t h
  · exact parameters_haltRun s
  · exact (exec_parameters (decode w) (loadIr w s) t he).trans (parameters_loadIr w s)

theorem runSteps_parameters (k : Nat) (s t : State) (h : runSteps k s = .next t) : parameters t = parameters s :=
  runSteps_induction (parameters · = parameters s) (fun u v hu hv => (step_parameters u v hv).trans hu) k s t rfl h

/-- Settles O10: PROG is a parameter that every run keeps, and a fetch reads PROG and PC alone. -/
theorem noRunWritesProgramMemory : Obligations.NoRunWritesProgramMemory := by
  unfold Obligations.NoRunWritesProgramMemory
  intro k s t h
  obtain ⟨hprog, -⟩ := (parameters_eq_iff t s).mp (runSteps_parameters k s t h)
  exact ⟨hprog, fun p => by simp only [fetchWord, hprog]⟩

end Sys2Proof.Machine

/-! PROOFS. Encoding (R62, R86): the four ranges of an operand value, and that decoding an assembled program recovers
what its lines say. -/

namespace Sys2Proof

/-- Settles O16: each range is the classification of a constant, a storage address or a register's code. -/
theorem classifyPartitionsOperandValues : Obligations.ClassifyPartitionsOperandValues := by
  unfold Obligations.ClassifyPartitionsOperandValues
  intro v
  refine ⟨classify_of_constant v, fun hlo hhi => ?_, classify_of_accumulatorCode v, classify_of_loopCounterCode v⟩
  exact classify_of_storageAddress v (v.toNat - 32768) (by omega) (by omega)

/-! ## Decoding after encoding (R60 to R67) -/

/-- A data instruction comes back because its operands do; LOOP and the unassigned words hold their raw fields. -/
theorem decode_encode (i : Instr) (h : i.wf = true) : decode (encode i) = i := by
  rw [decode, encode, splitFields_joinFields]
  cases i with
  | mov d s | add d s | sub d s | mul d s | div d s =>
    obtain ⟨hd, hs⟩ : d.wf = true ∧ s.wf = true := by simpa [Instr.wf] using h
    simp [instrFields, decodeFields, classify_operandCode d hd, classify_operandCode s hs]
  | _ => rfl

theorem map_decode_map_encode (is : List Instr) (h : ∀ i ∈ is, i.wf = true) : (is.map encode).map decode = is := by
  rw [List.map_map]
  exact (List.map_congr_left fun i hi => decode_encode i (h i hi)).trans (List.map_id is)

end Sys2Proof

namespace Sys2Proof.Machine.Assembler

/-! ## Lines in order (R79, R84) -/

theorem assembleFrom_cons_ok (a b : AsmState) (l : AsmLine) (ls : List AsmLine) :
    assembleFrom a (l :: ls) = .ok b ↔ ∃ c, assembleLine a l = .ok c ∧ assembleFrom c ls = .ok b := by
  rw [assembleFrom]
  cases assembleLine a l <;> simp

/-- A text that assembles stops at every line in a state: the converse of `assembleFrom_append`. -/
theorem assembleFrom_append_ok (a b : AsmState) (pre post : List AsmLine)
    (h : assembleFrom a (pre ++ post) = .ok b) : ∃ c, assembleFrom a pre = .ok c ∧ assembleFrom c post = .ok b := by
  induction pre generalizing a with
  | nil => exact ⟨a, rfl, h⟩
  | cons l ls ih =>
    obtain ⟨d, hl, hd⟩ := (assembleFrom_cons_ok a b l _).mp h
    obtain ⟨c, hc, hb⟩ := ih d hd
    exact ⟨c, (assembleFrom_cons_ok a c l ls).mpr ⟨d, hl, hc⟩, hb⟩

theorem assemble_ok (text : List Text) (ws : List Word) (h : assemble text = .ok ws) :
    ∃ a, assembleFrom AsmState.start (text.map parseAsmLine) = .ok a ∧ ws = a.emitted.map encode := by
  unfold assemble at h
  cases ha : assembleFrom AsmState.start (text.map parseAsmLine) with
  | error e => simp [ha] at h
  | ok a => exact ⟨a, rfl, by simpa [ha, eq_comm] using h⟩

/-- A label marker sets the active target and nothing else (R80). -/
theorem assembleLine_label_ok (a b : AsmState) (h : assembleLine a .label = .ok b) :
    b = { a with target := some (counter a) } :=
  (Except.ok.inj h).symm

/-! ## What a run of lines emits -/

/-- The lines take the assembler from `a` to `b` by emitting `is`: one instruction for each line that is no label
marker, which that line denotes in the table at the end. -/
structure EmitsLines (a b : AsmState) (ls : List AsmLine) (is : List Instr) : Prop where
  emitted : b.emitted = a.emitted ++ is
  table : Extends a.symbols b.symbols
  denotes : List.Forall₂ (lineDenotes b.symbols) (ls.filter (· ≠ .label)) is
  wf : a.symbols.length ≤ 32766 → ∀ i ∈ is, i.wf = true

theorem EmitsLines.nil (a : AsmState) : EmitsLines a a [] [] :=
  ⟨(List.append_nil _).symm, .refl _, .nil, fun _ _ hi => (List.not_mem_nil hi).elim⟩

theorem EmitsLines.cons_label (a b c : AsmState) (ls : List AsmLine) (is : List Instr)
    (hl : assembleLine a .label = .ok c) (h : EmitsLines c b ls is) : EmitsLines a b (.label :: ls) is := by
  obtain rfl := assembleLine_label_ok a c hl
  exact ⟨h.emitted, h.table, h.denotes, h.wf⟩

/-- The line's own instruction is denoted in the table after the line, and so in the table at the end. -/
theorem EmitsLines.cons_instr (a b c : AsmState) (m : Text) (operands : List Text) (ls : List AsmLine)
    (is : List Instr) (hl : assembleLine a (.instr m operands) = .ok c) (h : EmitsLines c b ls is) :
    ∃ i, EmitsLines a b (.instr m operands :: ls) (i :: is) := by
  obtain ⟨i, -, hemit, htable, hden, hwf, -⟩ := assembleLine_instr_ok a c m operands hl
  refine ⟨i, by rw [h.emitted, hemit, List.append_assoc]; rfl, htable.trans h.table, ?_, fun hcap => ?_⟩
  · exact .cons (lineDenotes_of_prefix _ _ h.table.isPrefix _ _ hden) h.denotes
  · exact List.forall_mem_cons.mpr ⟨hwf hcap, h.wf (htable.capacity hcap)⟩

theorem assembleFrom_emitsLines (a b : AsmState) (ls : List AsmLine) (h : assembleFrom a ls = .ok b) :
    ∃ is, EmitsLines a b ls is := by
  induction ls generalizing a with
  | nil =>
    obtain rfl := Except.ok.inj h
    exact ⟨[], .nil a⟩
  | cons l ls ih =>
    obtain ⟨c, hl, hc⟩ := (assembleFrom_cons_ok a b l ls).mp h
    obtain ⟨is, his⟩ := ih c hc
    cases l with
    | label => exact ⟨is, .cons_label a b c ls is hl his⟩
    | instr m operands =>
      obtain ⟨i, hi⟩ := EmitsLines.cons_instr a b c m operands ls is hl his
      exact ⟨i :: is, hi⟩

/-- The counter advances once for each line that is no label marker (R79). -/
theorem assembleFrom_counter (a b : AsmState) (ls : List AsmLine) (h : assembleFrom a ls = .ok b) :
    counter b = counter a + instructionLines ls := by
  obtain ⟨is, his⟩ := assembleFrom_emitsLines a b ls h
  have hlen : instructionLines ls = is.length := his.denotes.length_eq
  rw [counter, his.emitted, List.length_append, hlen, counter]

/-! ## The active loop target (R80, R81) -/

theorem assembleFrom_target_of_no_label (a b : AsmState) (ls : List AsmLine) (hn : .label ∉ ls)
    (h : assembleFrom a ls = .ok b) : b.target = a.target := by
  induction ls generalizing a with
  | nil => rw [Except.ok.inj h]
  | cons l ls ih =>
    obtain ⟨c, hl, hc⟩ := (assembleFrom_cons_ok a b l ls).mp h
    obtain ⟨hhead, htail⟩ := not_or.mp (mt List.mem_cons.mpr hn)
    cases l with
    | label => exact (hhead rfl).elim
    | instr m operands =>
      obtain ⟨-, htarget, -⟩ := assembleLine_instr_ok a c m operands hl
      exact (ih c htail hc).trans htarget

/-- A LOOP line emits LOOP to the active target. -/
theorem assembleLine_loop_ok (a b : AsmState) (n : Nat) (ht : a.target = some n)
    (h : assembleLine a (.instr ['L', 'O', 'O', 'P'] []) = .ok b) :
    ∃ t x, b.emitted = a.emitted ++ [.loop t x] ∧ t.toNat = n := by
  obtain ⟨i, -, hemit, -, -, -, ⟨-, k, t, hk, htk, rfl⟩ | ⟨hne, -⟩⟩ := assembleLine_instr_ok a b _ [] h
  · exact ⟨t, 0, hemit, htk.trans (Option.some.inj (hk.symm.trans ht))⟩
  · exact (hne rfl).elim

/-- The label's position is the counter when its marker is read, and no line between the marker and the LOOP line
changes the active target. -/
theorem assembleFrom_loopsTargetTheLastLabel (b : AsmState) (ls : List AsmLine)
    (h : assembleFrom AsmState.start ls = .ok b) : loopsTargetTheLastLabel ls b.emitted := by
  rintro before between post rfl hn
  obtain ⟨c, hbefore, h⟩ := assembleFrom_append_ok _ b before _ h
  obtain ⟨d, hlabel, h⟩ := (assembleFrom_cons_ok c b _ _).mp h
  obtain ⟨e, hbetween, h⟩ := assembleFrom_append_ok d b between _ h
  obtain ⟨f, hloop, hpost⟩ := (assembleFrom_cons_ok e b _ _).mp h
  obtain rfl := assembleLine_label_ok c d hlabel
  have hc : counter c = instructionLines before := by
    simpa [counter, AsmState.start] using assembleFrom_counter _ c before hbefore
  have he : counter e = instructionLines (before ++ between) := by
    rw [assembleFrom_counter _ e between hbetween, instructionLines_append, ← hc]; rfl
  have htarget : e.target = some (counter c) := assembleFrom_target_of_no_label _ e between hn hbetween
  obtain ⟨t, x, hemit, ht⟩ := assembleLine_loop_ok e f _ htarget hloop
  obtain ⟨is, hrest⟩ := assembleFrom_emitsLines f b post hpost
  refine ⟨t, x, ?_, ht.trans hc⟩
  rw [hrest.emitted, hemit, ← he]
  simp [counter]

/-- Settles O47: the emitted instructions are well-formed, so decoding their words gives them back; and each one is what
its line denotes, LOOP with the last label's position. -/
theorem assembledWordsDenoteTheirLines : Obligations.AssembledWordsDenoteTheirLines := by
  unfold Obligations.AssembledWordsDenoteTheirLines
  intro text ws h
  obtain ⟨a, ha, rfl⟩ := assemble_ok text ws h
  obtain ⟨is, his⟩ := assembleFrom_emitsLines _ a _ ha
  have hemit : a.emitted = is := his.emitted
  have hdecode : (a.emitted.map encode).map decode = a.emitted :=
    map_decode_map_encode _ (hemit ▸ his.wf (Nat.zero_le _))
  rw [hdecode]
  exact ⟨a, ha, hemit ▸ his.denotes, assembleFrom_loopsTargetTheLastLabel a _ ha⟩

end Sys2Proof.Machine.Assembler

/-! PROOFS. Words (R60 to R74): decoding undoes encoding and encoding decoding, the opcode map, and the serial form of a
program image. -/

namespace Sys2Proof

/-! ## Words and instructions (R60 to R72) -/

/-- Settles O14: the joined fields split again, and each well-formed operand is what its code classifies as. -/
theorem decodeOfEncodeIsTheInstruction : Obligations.DecodeOfEncodeIsTheInstruction := by
  unfold Obligations.DecodeOfEncodeIsTheInstruction
  exact decode_encode

/-- The opcode map loses no field: each opcode has a row of its own, and each row keeps both operand fields. -/
theorem instrFields_decodeFields (f : Fields) : instrFields (decodeFields f) = f := by
  obtain ⟨op, a, b⟩ := f
  unfold decodeFields
  dsimp only
  split
  case h_16 =>
    obtain rfl : op = 0b1111#4 := by decide +revert
    rfl
  all_goals simp [instrFields]

@[simp] theorem instrFields_decode (w : Word) : instrFields (decode w) = splitFields w :=
  instrFields_decodeFields (splitFields w)

@[simp] theorem encode_decode (w : Word) : encode (decode w) = w := by
  rw [encode, instrFields_decode, joinFields_splitFields]

theorem decodeFields_wf (f : Fields) : (decodeFields f).wf = true := by
  unfold decodeFields
  split <;> simp [Instr.wf]

theorem decode_wf (w : Word) : (decode w).wf = true := decodeFields_wf (splitFields w)

/-- Settles O15: no field of a word is lost in decoding, and the fields cover the word. -/
theorem everyWordIsTheWordOfItsInstruction : Obligations.EveryWordIsTheWordOfItsInstruction := by
  unfold Obligations.EveryWordIsTheWordOfItsInstruction
  exact fun w => ⟨decode_wf w, encode_decode w⟩

theorem decode_eq_decodeFields (w : Word) : decode w = decodeFields
    ⟨w.extractLsb' 32 4, w.extractLsb' 16 16, w.extractLsb' 0 16⟩ := rfl

/-- Settles O17: the opcode map, read row by row. -/
theorem opcodeFieldSelectsTheInstruction : Obligations.OpcodeFieldSelectsTheInstruction := by
  unfold Obligations.OpcodeFieldSelectsTheInstruction
  intro w op a b hop ha hb
  rw [decode_eq_decodeFields w, hop, ha, hb]
  refine ⟨?_, ?_, ?_, ?_, ?_, ?_, ?_, ?_, ?_, ?_, ?_, ?_, ?_, ?_, ?_, ?_⟩
  all_goals
    rintro rfl
    rfl

/-- Settles O18, by evaluating the decoder on the seven words. -/
theorem specWordsDecodeToTheirInstructions : Obligations.SpecWordsDecodeToTheirInstructions := by
  unfold Obligations.SpecWordsDecodeToTheirInstructions
  decide

/-! ## The serial form of a word (R73) -/

/-- The character of a bit. -/
def charOfBit (b : Bool) : Char := if b then '1' else '0'

/-- The `l` low bits of `n` as characters, the most significant first. -/
def binaryDigits : Nat → Nat → List Char
  | 0, _ => []
  | l + 1, n => charOfBit (n.testBit l) :: binaryDigits l n

theorem bitOfChar_eq_some_iff (c : Char) (b : Bool) : bitOfChar c = some b ↔ c = charOfBit b := by
  unfold bitOfChar charOfBit
  cases b <;> grind

theorem binaryDigits_eq_map (l n : Nat) :
    binaryDigits l n = (List.range l).map fun k => charOfBit (n.testBit (l - 1 - k)) := by
  induction l with
  | zero => rfl
  | succ l ih =>
    rw [binaryDigits, ih, List.range_succ_eq_map, List.map_cons, List.map_map]
    congr 1
    refine List.map_congr_left fun k _ => ?_
    simp only [Function.comp_apply]
    congr 2
    omega

theorem serialise_eq_binaryDigits (w : Word) : serialise w = binaryDigits 36 w.toNat := by
  rw [binaryDigits_eq_map]
  refine List.map_congr_left fun k hk => ?_
  have hk : k < 36 := List.mem_range.mp hk
  simp [charOfBit, BitVec.getMsbD, hk, BitVec.getLsbD]

/-- One digit more of a number read from its most significant bit. -/
theorem div_two_pow_eq_iff (n l acc : Nat) (b : Bool) :
    n / 2 ^ l = 2 * acc + b.toNat ↔ n / 2 ^ (l + 1) = acc ∧ n.testBit l = b := by
  rw [pow_succ, ← Nat.div_div_eq_div_mul, Nat.testBit_eq_decide_div_mod_eq]
  cases b <;> simp <;> omega

/-- A line reads as `n` exactly where it is the low bits of `n`, and what was read before it is the rest of `n`. -/
theorem valueOfLine_eq_some_iff (line : List Char) (acc n : Nat) :
    valueOfLine acc line = some n ↔ n / 2 ^ line.length = acc ∧ line = binaryDigits line.length n := by
  induction line generalizing acc with
  | nil => simp [valueOfLine, binaryDigits, eq_comm]
  | cons c cs ih =>
    have hbit : valueOfLine acc (c :: cs) = some n ↔
        ∃ b, bitOfChar c = some b ∧ valueOfLine (2 * acc + b.toNat) cs = some n := by
      rw [valueOfLine]
      cases bitOfChar c <;> simp
    simp only [hbit, ih, bitOfChar_eq_some_iff, div_two_pow_eq_iff, binaryDigits, List.length_cons, List.cons.injEq]
    constructor
    · rintro ⟨b, hc, ⟨hn, rfl⟩, hcs⟩
      exact ⟨hn, hc, hcs⟩
    · rintro ⟨hn, hc, hcs⟩
      exact ⟨_, hc, ⟨hn, rfl⟩, hcs⟩

theorem length_serialise (w : Word) : (serialise w).length = 36 := by simp [serialise]

/-- A line is read as a word exactly where it is that word's line. -/
theorem parseLine_ok_iff (line : List Char) (w : Word) : parseLine line = .ok w ↔ line = serialise w := by
  constructor
  · intro h
    unfold parseLine at h
    split at h
    · cases h
    · rename_i hlen
      have hlen : line.length = 36 := not_not.mp hlen
      split at h
      · rename_i n hn
        obtain rfl := Except.ok.inj h
        obtain ⟨hhigh, hline⟩ := (valueOfLine_eq_some_iff line 0 n).mp hn
        rw [hlen] at hhigh hline
        have hn36 : n < 2 ^ 36 := Nat.lt_of_div_eq_zero (by decide) hhigh
        rw [serialise_eq_binaryDigits, BitVec.toNat_ofNat, Nat.mod_eq_of_lt hn36]
        exact hline
      · cases h
  · rintro rfl
    have hvalue : valueOfLine 0 (serialise w) = some w.toNat := by
      rw [valueOfLine_eq_some_iff, length_serialise]
      exact ⟨Nat.div_eq_of_lt w.isLt, serialise_eq_binaryDigits w⟩
    simp [parseLine, length_serialise, hvalue]

theorem serialise_getElem? (w : Word) (k : Nat) (hk : k < 36) :
    (serialise w)[k]? = some (if w.getLsbD (35 - k) then '1' else '0') := by
  simp [serialise, hk, BitVec.getMsbD]

/-- Settles O19: a line is read as a word exactly where it is that word's line. -/
theorem serialFormAndWordsCorrespond : Obligations.SerialFormAndWordsCorrespond := by
  unfold Obligations.SerialFormAndWordsCorrespond
  exact ⟨fun w => (parseLine_ok_iff _ w).mpr rfl, fun line w h => ((parseLine_ok_iff line w).mp h).symm,
    serialise_getElem?⟩

/-! ## Program images (R74) -/

theorem valueOfLine_isSome_iff (line : List Char) (acc : Nat) :
    (∃ n, valueOfLine acc line = some n) ↔ ∀ c ∈ line, c = '0' ∨ c = '1' := by
  induction line generalizing acc with
  | nil => simp [valueOfLine]
  | cons c cs ih =>
    rw [valueOfLine, List.forall_mem_cons]
    cases hc : bitOfChar c with
    | some b =>
      have hbin : c = '0' ∨ c = '1' := by
        rw [(bitOfChar_eq_some_iff c b).mp hc]
        cases b <;> decide
      simp [ih, hbin]
    | none =>
      have hbin : ¬ (c = '0' ∨ c = '1') := by
        rintro (rfl | rfl) <;> cases hc
      simp [hbin]

/-- The lines that the host accepts (R74). -/
theorem parseLine_accepts_iff (line : List Char) :
    (∃ w, parseLine line = .ok w) ↔ line.length = 36 ∧ ∀ c ∈ line, c = '0' ∨ c = '1' := by
  rw [← valueOfLine_isSome_iff line 0, parseLine]
  by_cases hlen : line.length = 36
  · cases valueOfLine 0 line <;> simp [hlen]
  · simp [hlen]

theorem parseImage_accepts_iff (image : List (List Char)) :
    (∃ ws, parseImage image = .ok ws) ↔ ∀ line ∈ image, ∃ w, parseLine line = .ok w := by
  induction image with
  | nil => simp [parseImage]
  | cons line rest ih =>
    simp only [parseImage_cons, List.forall_mem_cons, ← ih]
    constructor
    · rintro ⟨-, v, vs, hv, hvs, -⟩
      exact ⟨⟨v, hv⟩, vs, hvs⟩
    · rintro ⟨⟨v, hv⟩, vs, hvs⟩
      exact ⟨_, v, vs, hv, hvs, rfl⟩

theorem parseImage_ok_forall₂ (image : List (List Char)) (ws : List Word) (h : parseImage image = .ok ws) :
    List.Forall₂ (fun line w => parseLine line = .ok w) image ws := by
  induction image generalizing ws with
  | nil =>
    obtain rfl := Except.ok.inj h
    exact .nil
  | cons line rest ih =>
    obtain ⟨v, vs, hv, hvs, rfl⟩ := (parseImage_cons line rest ws).mp h
    exact .cons hv (ih vs hvs)

end Sys2Proof

namespace Sys2Proof.Machine

theorem loadAndReset_ok_iff (image : List (List Char)) (policy : UnassignedOpcodePolicy) (s : State) :
    loadAndReset image policy = .ok s ↔ ∃ ws, parseImage image = .ok ws ∧ s = resetWith ws policy := by
  unfold loadAndReset
  cases parseImage image <;> simp [eq_comm]

/-- Settles O20: an image is accepted where each of its lines is, and its words are its lines' words in order. -/
theorem imageIsLoadedOrRefused : Obligations.ImageIsLoadedOrRefused := by
  unfold Obligations.ImageIsLoadedOrRefused
  intro image policy
  simp only [loadAndReset_ok_iff, ← parseLine_accepts_iff, ← parseImage_accepts_iff]
  refine ⟨⟨fun ⟨_, ws, hws, _⟩ => ⟨ws, hws⟩, fun ⟨ws, hws⟩ => ⟨_, ws, hws, rfl⟩⟩, ?_⟩
  rintro s ⟨ws, hws, rfl⟩
  have hwords := parseImage_ok_forall₂ image ws hws
  refine ⟨rfl, hwords.length_eq.symm, fun k line hline => ?_⟩
  obtain ⟨hk, rfl⟩ := List.getElem?_eq_some_iff.mp hline
  have hk' : k < ws.length := hwords.length_eq ▸ hk
  exact ⟨ws[k], List.getElem?_eq_getElem hk', hwords.get hk hk'⟩

end Sys2Proof.Machine

/-! PROOFS. How an instruction ends (R122, R143): it writes its destination, runs as LOOP, or enters a fault that it may
raise. Frames, faults, the growth of the data memory and the invariant are read off these three ends. -/

namespace Sys2Proof.Machine

/-! ## The memory primitives (R42, R43) -/

/-- Settles O23: below the length both find the cell, at the length a write appends, and past it both fault. -/
theorem memoryAccessesKeepTheBounds : Obligations.MemoryAccessesKeepTheBounds := by
  unfold Obligations.MemoryAccessesKeepTheBounds
  refine fun m i x => ⟨fun h => ?_, fun h => ?_, fun h => ?_, fun h => ?_⟩
  · exact ⟨(memRead_ok_iff m i _).mpr (List.getElem?_eq_getElem h), memWrite_of_lt m i x h⟩
  · exact ⟨_, memRead_of_le m i h, rfl, rfl⟩
  · exact h ▸ memWrite_length m x
  · exact ⟨_, memWrite_of_gt m i x h, rfl, rfl⟩

/-- The written slot holds the value. -/
theorem memWrite_same (m n : Memory) (i : Nat) (x : Value) (h : memWrite m i x = .ok n) : n[i]? = some x := by
  obtain ⟨hi, rfl⟩ | ⟨rfl, rfl⟩ := memWrite_ok m n i x h
  · simp [hi]
  · simp

/-- A write appends one cell where it does not overwrite one. -/
theorem memWrite_length_cases (m n : Memory) (i : Nat) (x : Value) (h : memWrite m i x = .ok n) :
    (i < m.length ∧ n.length = m.length) ∨ (i = m.length ∧ n.length = m.length + 1) := by
  obtain ⟨hi, rfl⟩ | ⟨rfl, rfl⟩ := memWrite_ok m n i x h <;> simp [*]

/-- Settles O24: a write overwrites one cell or appends it. -/
theorem readAfterWriteGivesTheValueWritten : Obligations.ReadAfterWriteGivesTheValueWritten := by
  unfold Obligations.ReadAfterWriteGivesTheValueWritten
  intro m n i x h
  refine ⟨(memRead_ok_iff n i x).mpr (memWrite_same m n i x h), fun j => memWrite_other m n i j x h, ?_,
    memWrite_wf m n i x h⟩
  obtain ⟨-, hlen⟩ | ⟨-, hlen⟩ := memWrite_length_cases m n i x h <;> omega

/-! ## Frames of the shared operations -/

/-- WriteOperand reaches AC, ECX and DM alone (R46). -/
theorem writeOperand_ok_frame (o : Operand) (x : Value) (s v : State) (h : writeOperand o x s = .ok v) :
    v = { s with ac := v.ac, ecx := v.ecx, dm := v.dm } := by
  obtain ⟨r, -, rfl⟩ | ⟨i, m, -, -, rfl⟩ := writeOperand_ok o x s v h
  · cases r <;> rfl
  · rfl

theorem writeOperand_ok_ir (o : Operand) (x : Value) (s v : State) (h : writeOperand o x s = .ok v) : v.ir = s.ir := by
  rw [writeOperand_ok_frame o x s v h]

theorem writeOperand_ok_st (o : Operand) (x : Value) (s v : State) (h : writeOperand o x s = .ok v) : v.st = s.st := by
  rw [writeOperand_ok_frame o x s v h]

theorem writeOperand_ok_prog (o : Operand) (x : Value) (s v : State) (h : writeOperand o x s = .ok v) :
    v.prog = s.prog := by
  rw [writeOperand_ok_frame o x s v h]

/-- LOOP writes PC alone (R124). -/
theorem loopNext_frame (t : Field) (s : State) : loopNext t s = { s with pc := (loopNext t s).pc } := by
  obtain ⟨-, e⟩ | ⟨-, e⟩ := loopNext_cases t s <;> rw [e] <;> rfl

@[simp] theorem loopNext_st (t : Field) (s : State) : (loopNext t s).st = s.st := by
  rw [loopNext_frame]

@[simp] theorem loopNext_dm (t : Field) (s : State) : (loopNext t s).dm = s.dm := by
  rw [loopNext_frame]

@[simp] theorem loopNext_prog (t : Field) (s : State) : (loopNext t s).prog = s.prog := by
  rw [loopNext_frame]

/-! ## The faults an instruction may raise (R141, R142) -/

/-- The operands that an instruction reads: MOV its source alone, the arithmetic instructions both (R90, R100). -/
def reads : Instr → List Operand
  | .mov _ s => [s]
  | .add d s | .sub d s | .mul d s | .div d s => [d, s]
  | _ => []

theorem destination_of_mem_reads (i : Instr) (o : Operand) (h : o ∈ reads i) : ∃ d, destination i = some d := by
  cases i with
  | mov | add | sub | mul | div => exact ⟨_, rfl⟩
  | _ => cases h

/-- The faults that an instruction may raise in a state, a rule for each cause. -/
inductive Raises (s : State) : Instr → FaultCause → Prop where
  /-- An operand that is read names a cell that does not exist. -/
  | missingCell (i : Instr) (j : Nat) (read : .var j ∈ reads i) (missing : s.dm.length ≤ j) :
      Raises s i (.dataReadOutOfBounds (operandCode (.var j)) j s.dm.length)
  /-- A MOV writes past the append position. -/
  | gap (j : Nat) (src : Operand) (past : s.dm.length < j) :
      Raises s (.mov (.var j) src) (.dataWriteOutOfBounds (operandCode (.var j)) j s.dm.length)
  /-- A DIV by 0. -/
  | zeroDivisor (dst src : Operand) (a : Value) (dividend : readOperand dst s = .ok a)
      (divisor : readOperand src s = .ok 0) : Raises s (.div dst src) (.divideByZero a)
  /-- The destination is a literal. -/
  | literalDestination (i : Instr) (c : Nat) (dest : destination i = some (.lit c)) :
      Raises s i (.illegalDestination (operandCode (.lit c)))
  /-- An unassigned word under the policy `Illegal`. -/
  | unassignedOpcode (i : Instr) (t : Field) (jump : jumpTarget i = some t) (refused : runsAsLoop s.policy i = false)
      (policy : s.policy = .illegal) : Raises s i (.illegalOpcode (instrFields i).opcode)

/-- An operand of the instruction that cannot be read raises the fault of a missing cell. -/
theorem raises_of_readOperand_error (i : Instr) (o : Operand) (s : State) (c : FaultCause)
    (ho : o ∈ reads i) (h : readOperand o s = .error c) : Raises s i c := by
  obtain ⟨j, rfl, hj, rfl⟩ := readOperand_error o s c h
  exact .missingCell i j ho hj

/-- The one fault of DIV's own operation (R104). -/
theorem divOp_error (a b : Value) (c : FaultCause) (h : divOp a b = .error c) : b = 0 ∧ c = .divideByZero a := by
  unfold divOp at h
  split at h
  · exact ⟨‹_›, (Except.error.inj h).symm⟩
  · cases h

theorem readOperand_var_ok_iff (j : Nat) (a : Value) (s : State) :
    readOperand (.var j) s = .ok a ↔ s.dm[j]? = some a :=
  memRead_ok_iff s.dm j a

/-- A slot that has been read is no gap. -/
theorem slot_lt_length_of_read (j : Nat) (a : Value) (s : State) (h : readOperand (.var j) s = .ok a) :
    j < s.dm.length :=
  (List.getElem?_eq_some_iff.mp ((readOperand_var_ok_iff j a s).mp h)).1

/-! ## The three ends of an instruction -/

/-- The states in which an instruction executed in `s` may end. An arithmetic instruction has read its destination
before it writes it. -/
inductive Ends (i : Instr) (s : State) : State → Prop where
  | wrote (d : Operand) (x : Value) (v : State) (dest : destination i = some d) (write : writeOperand d x s = .ok v)
      (read : (∃ src, i = .mov d src) ∨ ∃ a, readOperand d s = .ok a) : Ends i s (advancePc v)
  | looped (t : Field) (jump : jumpTarget i = some t) (asLoop : runsAsLoop s.policy i = true) : Ends i s (loopNext t s)
  | faulted (c : FaultCause) (raised : Raises s i c) : Ends i s (raiseFault c s)

theorem mov_ends (dst src : Operand) (s u : State) (h : exec (.mov dst src) s = .next u) :
    Ends (.mov dst src) s u := by
  obtain ⟨v, hv, rfl⟩ | ⟨c, hc, rfl⟩ := settle_next _ _ _ h
  · obtain ⟨x, -, hw⟩ := (move_ok dst src s v).mp hv
    exact .wrote dst x v rfl hw (.inl ⟨src, rfl⟩)
  · obtain hread | ⟨x, -, hw⟩ := (move_error dst src s c).mp hc
    · exact .faulted c (raises_of_readOperand_error _ src s c (List.mem_singleton_self src) hread)
    · obtain ⟨k, rfl, rfl⟩ | ⟨j, rfl, hj, rfl⟩ := writeOperand_error dst x s c hw
      · exact .faulted _ (.literalDestination _ k rfl)
      · exact .faulted _ (.gap j src hj)

/-- ADD, SUB, MUL and DIV end alike, given what their own operation raises. -/
theorem alu_ends (op : Value → Value → Except FaultCause Value) (i : Instr) (dst src : Operand) (s u : State)
    (hd : destination i = some dst) (hr : reads i = [dst, src])
    (hop : ∀ a b c, readOperand dst s = .ok a → readOperand src s = .ok b → op a b = .error c → Raises s i c)
    (h : settle s (alu op dst src s) = .next u) : Ends i s u := by
  obtain ⟨v, hv, rfl⟩ | ⟨c, hc, rfl⟩ := settle_next _ _ _ h
  · obtain ⟨a, b, x, ha, -, -, hw⟩ := (alu_ok op dst src s v).mp hv
    exact .wrote dst x v hd hw (.inr ⟨a, ha⟩)
  · refine .faulted c ?_
    obtain hread | ⟨a, ha, hread | ⟨b, hb, hraise | ⟨x, -, hw⟩⟩⟩ := (alu_error op dst src s c).mp hc
    · exact raises_of_readOperand_error i dst s c (by simp [hr]) hread
    · exact raises_of_readOperand_error i src s c (by simp [hr]) hread
    · exact hop a b c ha hb hraise
    · obtain ⟨k, rfl, rfl⟩ | ⟨j, rfl, hj, rfl⟩ := writeOperand_error dst x s c hw
      · exact .literalDestination i k hd
      · exact absurd hj (Nat.not_lt_of_gt (slot_lt_length_of_read j a s ha))

theorem jump_ends (i : Instr) (t : Field) (s u : State) (ht : jumpTarget i = some t) (h : exec i s = .next u) :
    Ends i s u := by
  obtain ⟨hl, he⟩ | ⟨hl, hp, he⟩ := exec_jump_cases i s t ht
  · obtain rfl := Host.Outcome.next.inj (he.symm.trans h)
    exact .looped t ht hl
  · obtain rfl := Host.Outcome.next.inj (he.symm.trans h)
    exact .faulted _ (.unassignedOpcode i t ht hl hp)

/-- Every instruction ends in one of the three ways. -/
theorem exec_ends (i : Instr) (s u : State) (h : exec i s = .next u) : Ends i s u := by
  obtain ⟨d, hd, -⟩ | ⟨t, ht, -⟩ := destination_or_jumpTarget i
  · cases i with
    | mov dst src => exact mov_ends dst src s u h
    | add dst src => exact alu_ends addOp _ dst src s u rfl rfl nofun h
    | sub dst src => exact alu_ends subOp _ dst src s u rfl rfl nofun h
    | mul dst src => exact alu_ends mulOp _ dst src s u rfl rfl nofun h
    | div dst src =>
      refine alu_ends divOp _ dst src s u rfl rfl (fun a b c ha hb hc => ?_) h
      obtain ⟨rfl, rfl⟩ := divOp_error a b c hc
      exact .zeroDivisor dst src a ha hb
    | _ => cases hd
  · exact jump_ends i t s u ht h

/-! ## The run status and the fault record (R142, R143, R150) -/

/-- From a running state an instruction leaves the core running, or faulted by its fault entry alone. -/
theorem exec_st_cases (i : Instr) (s u : State) (hs : s.st = .running) (h : exec i s = .next u) :
    u.st = .running ∨ ∃ c, Raises s i c ∧ u = raiseFault c s := by
  cases exec_ends i s u h with
  | wrote d x v hd hw hr => exact .inl ((writeOperand_ok_st d x s v hw).trans hs)
  | looped t ht hl => exact .inl ((loopNext_st t s).trans hs)
  | faulted c hc => exact .inr ⟨c, hc, rfl⟩

/-- No instruction halts (R150). -/
theorem exec_not_halted (i : Instr) (s t : State) (hs : s.st = .running) (h : exec i s = .next t) :
    t.st ≠ .halted := by
  intro hhalt
  obtain hrun | ⟨c, -, rfl⟩ := exec_st_cases i s t hs h
  · cases hrun.symm.trans hhalt
  · cases hhalt

/-- The record that a fault leaves is the raised one. -/
theorem exec_faulted (i : Instr) (s u : State) (record : FaultRecord) (hs : s.st = .running) (h : exec i s = .next u)
    (hu : u.st = .faulted record) :
    Raises s i record.cause ∧ u = raiseFault record.cause s ∧ record = ⟨record.cause, s.pc, s.ir⟩ := by
  obtain hrun | ⟨c, hc, rfl⟩ := exec_st_cases i s u hs h
  · cases hrun.symm.trans hu
  · obtain rfl := RunStatus.faulted.inj hu
    exact ⟨hc, rfl, rfl⟩

/-- Settles O44: the one end that leaves ST Faulted is fault entry from the state before the instruction. -/
theorem faultsArePrecise : Obligations.FaultsArePrecise := by
  unfold Obligations.FaultsArePrecise
  intro i s u record hs h hu
  obtain ⟨-, rfl, hrecord⟩ := exec_faulted i s u record hs h hu
  refine ⟨?_, congrArg FaultRecord.pc hrecord, congrArg FaultRecord.word hrecord⟩
  rw [← hu]
  rfl

/-- The opcode of a jump word that does not run as LOOP is one of the ten unassigned ones. -/
theorem six_le_opcode_of_unassigned (i : Instr) (t : Field) (policy : UnassignedOpcodePolicy)
    (ht : jumpTarget i = some t) (hl : runsAsLoop policy i = false) : 6 ≤ (instrFields i).opcode.toNat := by
  cases i with
  | mov | add | sub | mul | div => cases ht
  | loop => cases hl
  | _ => simp [instrFields]

theorem causeBelongsTo_of_raises (s : State) (i : Instr) (c : FaultCause) (h : Raises s i c) :
    causeBelongsTo s i c := by
  cases h with
  | missingCell i j read missing => exact ⟨rfl, destination_of_mem_reads i _ read⟩
  | gap j src past => exact ⟨rfl, _, src, rfl⟩
  | zeroDivisor dst src dividend divisor => exact ⟨rfl, dst, src, rfl⟩
  | literalDestination i c dest => exact ⟨rfl, c, dest⟩
  | unassignedOpcode i t jump refused policy =>
    exact ⟨rfl, policy, six_le_opcode_of_unassigned i t _ jump refused, rfl, t, jump⟩

/-- Settles O45: the cause recorded is one that the instruction may raise. -/
theorem faultCausesBelongToTheirInstructions : Obligations.FaultCausesBelongToTheirInstructions := by
  unfold Obligations.FaultCausesBelongToTheirInstructions
  intro i s u record hs h hu
  obtain ⟨hraised, -, -⟩ := exec_faulted i s u record hs h hu
  exact causeBelongsTo_of_raises s i record.cause hraised

end Sys2Proof.Machine

/-! PROOFS. Frames of the two instruction families (R90, R106, R124), the growth of the data memory (R32, R91), and the
invariant of the state. -/

namespace Sys2Proof.Machine

/-! ## Frames -/

/-- WriteOperand leaves every register but its destination. -/
theorem writeOperand_ok_readReg (d : Operand) (x : Value) (s v : State) (r : DataReg) (hr : d ≠ .reg r)
    (h : writeOperand d x s = .ok v) : readReg r v = readReg r s := by
  obtain ⟨q, rfl, rfl⟩ | ⟨i, m, -, -, rfl⟩ := writeOperand_ok d x s v h
  · rw [readReg_writeReg, if_neg fun hq => hr (by rw [hq])]
  · cases r <;> rfl

/-- WriteOperand leaves every slot but its destination's. -/
theorem writeOperand_ok_getElem? (d : Operand) (x : Value) (s v : State) (j : Nat) (hj : d ≠ .var j)
    (h : writeOperand d x s = .ok v) : v.dm[j]? = s.dm[j]? := by
  obtain ⟨r, -, rfl⟩ | ⟨i, m, rfl, hm, rfl⟩ := writeOperand_ok d x s v h
  · rw [writeReg_dm]
  · exact memWrite_other s.dm m i j x hm fun hij => hj (by rw [hij])

theorem memRead_toOption (m : Memory) (j : Nat) : (memRead m j).toOption = m[j]? := by
  unfold memRead
  cases m[j]? <;> rfl

@[simp] theorem readReg_advancePc (r : DataReg) (s : State) : readReg r (advancePc s) = readReg r s := by
  cases r <;> rfl

@[simp] theorem readReg_raiseFault (r : DataReg) (c : FaultCause) (s : State) :
    readReg r (raiseFault c s) = readReg r s := by
  cases r <;> rfl

theorem destination_of_data (i : Instr) (dst src : Operand)
    (hi : i = .mov dst src ∨ i = .add dst src ∨ i = .sub dst src ∨ i = .mul dst src ∨ i = .div dst src) :
    destination i = some dst := by
  obtain rfl | rfl | rfl | rfl | rfl := hi <;> rfl

/-- Settles O42: a data instruction ends in one write through its destination, or in fault entry. -/
theorem dataInstructionsWriteOnlyTheirDestination : Obligations.DataInstructionsWriteOnlyTheirDestination := by
  unfold Obligations.DataInstructionsWriteOnlyTheirDestination
  intro s u i dst src hi h
  obtain ⟨hprog, hpolicy⟩ := (parameters_eq_iff u s).mp (exec_parameters i s u h)
  simp only [memRead_toOption]
  obtain ⟨x, v, hw, rfl⟩ | ⟨c, rfl⟩ := exec_data_cases i s u dst (destination_of_data i dst src hi) h
  · exact ⟨fun r hr => (readReg_advancePc r v).trans (writeOperand_ok_readReg dst x s v r hr hw),
      fun j hj => writeOperand_ok_getElem? dst x s v j hj hw, writeOperand_ok_ir dst x s v hw, hprog, hpolicy,
      .inl (writeOperand_ok_st dst x s v hw)⟩
  · exact ⟨fun r _ => readReg_raiseFault r c s, fun _ _ => rfl, rfl, hprog, hpolicy, .inr ⟨_, rfl⟩⟩

/-- Settles O43: a jump word writes PC alone where it runs as LOOP, and ST alone where it faults. -/
theorem loopAndUnassignedWriteOnlyThePc : Obligations.LoopAndUnassignedWriteOnlyThePc := by
  unfold Obligations.LoopAndUnassignedWriteOnlyThePc
  intro s u i t ht h
  obtain ⟨hl, he⟩ | ⟨hl, -, he⟩ := exec_jump_cases i s t ht
  · obtain rfl := Host.Outcome.next.inj (he.symm.trans h)
    rw [loopNext_frame]
    simp [hl]
  · obtain rfl := Host.Outcome.next.inj (he.symm.trans h)
    simp [hl]

/-! ## The growth of the data memory (R32, R91) -/

/-- A write appends a cell only through the slot of the length. -/
theorem writeOperand_ok_dm_length (d : Operand) (x : Value) (s v : State) (h : writeOperand d x s = .ok v) :
    v.dm.length = s.dm.length ∨ (v.dm.length = s.dm.length + 1 ∧ d = .var s.dm.length) := by
  obtain ⟨r, -, rfl⟩ | ⟨i, m, rfl, hm, rfl⟩ := writeOperand_ok d x s v h
  · exact .inl (by rw [writeReg_dm])
  · obtain ⟨-, hlen⟩ | ⟨rfl, hlen⟩ := memWrite_length_cases s.dm m i x hm
    · exact .inl hlen
    · exact .inr ⟨hlen, rfl⟩

/-- An arithmetic instruction has read its destination's slot, which is thus below the length. -/
theorem exec_dm_length (i : Instr) (s u : State) (h : exec i s = .next u) :
    u.dm.length = s.dm.length ∨
      (u.dm.length = s.dm.length + 1 ∧ ∃ src, i = .mov (.var s.dm.length) src) := by
  cases exec_ends i s u h with
  | looped t ht hl => exact .inl (by rw [loopNext_dm])
  | faulted c hc => exact .inl rfl
  | wrote d x v hd hw hr =>
    obtain hlen | ⟨hlen, rfl⟩ := writeOperand_ok_dm_length d x s v hw
    · exact .inl hlen
    · refine .inr ⟨hlen, hr.resolve_right ?_⟩
      rintro ⟨a, ha⟩
      exact absurd (slot_lt_length_of_read _ a s ha) (lt_irrefl _)

/-- Settles O25: a halt keeps the memory, and an instruction grows it only as a MOV to the slot of its length. -/
theorem onlyMovAppendsACell : Obligations.OnlyMovAppendsACell := by
  unfold Obligations.OnlyMovAppendsACell
  intro s t h
  obtain ⟨-, ⟨-, rfl⟩ | ⟨w, hw, he⟩⟩ := step_next s t h
  · exact .inl rfl
  · exact (exec_dm_length (decode w) (loadIr w s) t he).imp_right fun ⟨hlen, src, hsrc⟩ => ⟨hlen, w, src, hw, hsrc⟩

/-! ## The clauses of the invariant -/

theorem fetchWord_eq_none_iff (s : State) : fetchWord s = none ↔ s.prog.length ≤ s.pc := List.getElem?_eq_none_iff

theorem pc_lt_of_fetchWord (s : State) (w : Word) (h : fetchWord s = some w) : s.pc < s.prog.length :=
  (List.getElem?_eq_some_iff.mp h).1

/-- A destination of a well-formed instruction is well-formed. -/
theorem destination_wf (i : Instr) (d : Operand) (hi : i.wf = true) (hd : destination i = some d) : d.wf = true := by
  cases i with
  | mov a b | add a b | sub a b | mul a b | div a b =>
    obtain rfl := Option.some.inj hd
    exact (Bool.and_eq_true_iff.mp hi).1
  | _ => cases hd

/-- So is an operand that it reads. -/
theorem mem_reads_wf (i : Instr) (o : Operand) (hi : i.wf = true) (ho : o ∈ reads i) : o.wf = true := by
  cases i with
  | mov a b | add a b | sub a b | mul a b | div a b =>
    obtain ⟨ha, hb⟩ := Bool.and_eq_true_iff.mp hi
    simp only [reads, List.mem_cons, List.not_mem_nil, or_false] at ho
    grind
  | _ => cases ho

theorem operandCode_destination (i : Instr) (d : Operand) (hd : destination i = some d) :
    operandCode d = (instrFields i).operand1 := by
  cases i with
  | mov | add | sub | mul | div =>
    obtain rfl := Option.some.inj hd
    rfl
  | _ => cases hd

theorem operandCode_mem_reads (i : Instr) (o : Operand) (ho : o ∈ reads i) :
    operandCode o = (instrFields i).operand1 ∨ operandCode o = (instrFields i).operand2 := by
  cases i with
  | mov | add | sub | mul | div =>
    simp only [reads, List.mem_cons, List.not_mem_nil, or_false] at ho
    grind [instrFields]
  | _ => cases ho

/-- A write through a destination that a word can hold keeps the memory within its slots (R40). -/
theorem exec_memory_wf (i : Instr) (s u : State) (hi : i.wf = true) (h : exec i s = .next u) (hm : Memory.wf s.dm) :
    Memory.wf u.dm := by
  cases exec_ends i s u h with
  | looped t ht hl => rwa [loopNext_dm]
  | faulted c hc => exact hm
  | wrote d x v hd hw hr =>
    obtain ⟨r, -, rfl⟩ | ⟨j, m, rfl, hmw, rfl⟩ := writeOperand_ok d x s v hw
    · rwa [advancePc_dm, writeReg_dm]
    · exact memWrite_wf s.dm m j x hmw hm (of_decide_eq_true (destination_wf i _ hi hd))

/-- From below the program's end PC goes on by one or to a 16-bit target (R24). -/
theorem exec_pc_le (i : Instr) (s u : State) (h : exec i s = .next u) (hpc : s.pc < s.prog.length) :
    u.pc ≤ max s.prog.length 65535 := by
  cases exec_ends i s u h with
  | wrote d x v hd hw hr =>
    rw [advancePc_pc, writeOperand_ok_pc d x s v hw]
    omega
  | faulted c hc => exact le_max_of_le_left hpc.le
  | looped t ht hl =>
    have ht16 := t.isLt
    obtain e | e := loopNext_pc t s <;> rw [e] <;> omega

/-- A fault record is true of the state it is raised in: its operands are those of the word in IR (R141). -/
theorem Raises.causeSound (s : State) (c : FaultCause) (h : Raises s (decode s.ir) c) : CauseSound s c := by
  have hwf := decode_wf s.ir
  generalize hi : decode s.ir = i at h hwf
  have hfields : instrFields i = splitFields s.ir := hi ▸ instrFields_decode s.ir
  cases h with
  | missingCell i j read missing =>
    have hj : j ≤ 32765 := of_decide_eq_true (mem_reads_wf i _ hwf read)
    exact ⟨operandCode_var_toNat j hj, hj, rfl, missing, hfields ▸ operandCode_mem_reads i _ read⟩
  | gap j src past =>
    have hj : j ≤ 32765 := of_decide_eq_true (destination_wf _ _ hwf rfl)
    exact ⟨operandCode_var_toNat j hj, hj, rfl, past, hfields ▸ rfl⟩
  | zeroDivisor dst src a dividend divisor => exact ⟨dst, src, hi, dividend, divisor⟩
  | literalDestination i c dest =>
    have hc : c ≤ 32767 := of_decide_eq_true (destination_wf i _ hwf dest)
    refine ⟨?_, hfields ▸ operandCode_destination i _ dest⟩
    rw [operandCode, BitVec.toNat_ofNat]
    omega
  | unassignedOpcode i t jump refused policy =>
    exact ⟨policy, six_le_opcode_of_unassigned i t _ jump refused, hfields ▸ rfl⟩

@[simp] theorem readOperand_raiseFault (o : Operand) (c : FaultCause) (s : State) :
    readOperand o (raiseFault c s) = readOperand o s := by
  cases o <;> simp

/-- What a record says does not depend on ST. -/
theorem causeSound_raiseFault (s : State) (c : FaultCause) : CauseSound (raiseFault c s) c ↔ CauseSound s c := by
  cases c <;> simp [CauseSound]

/-- The halt keeps the invariant: it is taken at or past N (R121). -/
theorem haltRun_keeps_inv (s : State) (hs : Inv s) (hf : fetchWord s = none) : Inv (haltRun s) :=
  ⟨hs.memory, hs.pcRange, fun _ => (fetchWord_eq_none_iff s).mp hf, nofun⟩

/-- An executed word keeps the invariant. -/
theorem exec_keeps_inv (s t : State) (w : Word) (hs : Inv s) (hst : s.st = .running) (hw : fetchWord s = some w)
    (h : exec (decode w) (loadIr w s) = .next t) : Inv t := by
  have hprog : t.prog = s.prog := ((parameters_eq_iff t (loadIr w s)).mp (exec_parameters _ _ t h)).1
  refine ⟨exec_memory_wf _ (loadIr w s) t (decode_wf w) h hs.memory, ?_, fun hhalt => ?_, fun record hrecord => ?_⟩
  · exact hprog ▸ exec_pc_le _ (loadIr w s) t h (pc_lt_of_fetchWord s w hw)
  · exact absurd hhalt (exec_not_halted _ (loadIr w s) t hst h)
  · obtain ⟨hraise, rfl, hrec⟩ := exec_faulted _ (loadIr w s) t record hst h hrecord
    exact ⟨congrArg FaultRecord.pc hrec, congrArg FaultRecord.word hrec, hw,
      (causeSound_raiseFault (loadIr w s) record.cause).mpr (Raises.causeSound (loadIr w s) record.cause hraise)⟩

/-- Settles O3: a step halts past the program's end, or executes the fetched word. -/
theorem everyStepKeepsTheInvariant : Obligations.EveryStepKeepsTheInvariant := by
  unfold Obligations.EveryStepKeepsTheInvariant
  intro s t hs h
  obtain ⟨hst, ⟨hf, rfl⟩ | ⟨w, hw, he⟩⟩ := step_next s t h
  · exact haltRun_keeps_inv s hs hf
  · exact exec_keeps_inv s t w hs hst hw he

/-- At reset there are no cells, PC is 0 and ST is Running. -/
theorem inv_resetWith (prog : List Word) (policy : UnassignedOpcodePolicy) : Inv (resetWith prog policy) :=
  ⟨Nat.zero_le _, Nat.zero_le _, nofun, nofun⟩

/-- Settles O2: the reset state itself is a reset with the empty program. -/
theorem invariantHoldsAtReset : Obligations.InvariantHoldsAtReset := by
  unfold Obligations.InvariantHoldsAtReset
  exact ⟨inv_resetWith [] .illegal, inv_resetWith⟩

end Sys2Proof.Machine

/-! PROOFS. Steps and runs (R120, R121, R164): what a step answers in each run status, how runs compose, and the three
ways in which one can end; reset and the host (R160 to R167). -/

namespace Sys2Proof.Machine

/-! ## One step -/

theorem step_of_fetch (s : State) (w : Word) (hs : s.st = .running) (hw : fetchWord s = some w) :
    step s = exec (decode w) (loadIr w s) := by
  simp [step, hs, hw]

theorem step_of_fetch_none (s : State) (hs : s.st = .running) (hf : fetchWord s = none) :
    step s = .next (haltRun s) := by
  simp [step, hs, hf]

/-- Every instruction has a meaning in every state. -/
theorem exec_answers (i : Instr) (s : State) : ∃ t, exec i s = .next t := by
  cases i <;> exact ⟨_, rfl⟩

theorem step_answers (s : State) (hs : s.st = .running) : ∃ t, step s = .next t := by
  cases hf : fetchWord s with
  | none => exact ⟨_, step_of_fetch_none s hs hf⟩
  | some w => exact step_of_fetch s w hs hf ▸ exec_answers (decode w) (loadIr w s)

/-- Settles O4: PROG[PC] is what the step fetches. -/
theorem stepRunsTheDecodedInstruction : Obligations.StepRunsTheDecodedInstruction := by
  unfold Obligations.StepRunsTheDecodedInstruction
  exact step_of_fetch

/-- Settles O5: past the last index there is no word to fetch. -/
theorem fetchPastTheProgramHalts : Obligations.FetchPastTheProgramHalts := by
  unfold Obligations.FetchPastTheProgramHalts
  exact fun s hs hpc => step_of_fetch_none s hs ((fetchWord_eq_none_iff s).mpr hpc)

/-- Settles O6, by the step's own case on ST. -/
theorem endedRunsTakeNoStep : Obligations.EndedRunsTakeNoStep := by
  unfold Obligations.EndedRunsTakeNoStep
  refine fun s => ⟨fun hs => ?_, fun record hs => ?_⟩ <;> rw [step, hs]

/-- Settles O7: a running core halts or executes the fetched word, and an ended one answers a fault. -/
theorem runningCoreAlwaysAnswersAState : Obligations.RunningCoreAlwaysAnswersAState := by
  unfold Obligations.RunningCoreAlwaysAnswersAState
  refine ⟨step_answers, fun s r h => ?_⟩
  obtain ⟨hhalted, hfaulted⟩ := endedRunsTakeNoStep s
  cases hs : s.st with
  | running =>
    obtain ⟨t, ht⟩ := step_answers s hs
    cases ht.symm.trans h
  | halted => cases (hhalted hs).symm.trans h
  | faulted record => cases (hfaulted record hs).symm.trans h

/-- Settles O9: an instruction leaves a running core running or faulted, so that a halt is the step's own. -/
theorem onlyRunningOffTheEndHalts : Obligations.OnlyRunningOffTheEndHalts := by
  unfold Obligations.OnlyRunningOffTheEndHalts
  refine ⟨exec_not_halted, fun s t h hhalt => ?_⟩
  obtain ⟨hs, ⟨hf, rfl⟩ | ⟨w, -, he⟩⟩ := step_next s t h
  · exact ⟨(fetchWord_eq_none_iff s).mp hf, rfl⟩
  · exact absurd hhalt (exec_not_halted (decode w) (loadIr w s) t hs he)

/-- Settles O13: the word is placed at the index that the step fetches from. -/
theorem placedWordIsWhatStepRuns : Obligations.PlacedWordIsWhatStepRuns := by
  unfold Obligations.PlacedWordIsWhatStepRuns
  intro s nbits w i h
  obtain ⟨v, hv, rfl⟩ := Option.map_eq_some_iff.mp h
  refine ⟨v, hv, rfl, ?_⟩
  have hplaced : s.withFetchWord nbits w = { s with prog := placeWord s.prog s.pc v, st := .running } := by
    simp [State.withFetchWord, hv]
  rw [hplaced]
  exact step_of_fetch _ v rfl (placeWord_getElem? s.prog s.pc v)

/-! ## LOOP and the unassigned words, completing (R124, R127) -/

theorem loopNext_of_pos (t : Field) (s : State) (h : 0 < s.ecx) : loopNext t s = redirectPc t s := by
  simp [loopNext, loopRedirects, h]

theorem loopNext_of_nonpos (t : Field) (s : State) (h : s.ecx ≤ 0) : loopNext t s = advancePc s := by
  simp [loopNext, loopRedirects, not_lt.mpr h]

/-- A word that runs as LOOP. -/
theorem exec_of_runsAsLoop (i : Instr) (t : Field) (s : State) (ht : jumpTarget i = some t)
    (hl : runsAsLoop s.policy i = true) : exec i s = .next (loopNext t s) := by
  obtain ⟨-, he⟩ | ⟨hl', -, -⟩ := exec_jump_cases i s t ht
  · exact he
  · cases hl.symm.trans hl'

/-- Settles O36: the test of ECX selects one of the two writes of PC. -/
theorem loopRedirectsWhileEcxIsPositive : Obligations.LoopRedirectsWhileEcxIsPositive := by
  unfold Obligations.LoopRedirectsWhileEcxIsPositive
  exact fun s t x => ⟨fun h => congrArg _ (loopNext_of_pos t s h), fun h => congrArg _ (loopNext_of_nonpos t s h)⟩

/-- Settles O40: the ten opcodes share one routine, which raises IllegalOpcode under `Illegal`. -/
theorem unassignedOpcodeFaultsUnderIllegal : Obligations.UnassignedOpcodeFaultsUnderIllegal := by
  unfold Obligations.UnassignedOpcodeFaultsUnderIllegal
  intro s t x i op hp hi
  suffices exec i s = .next (unassigned op t s) by rw [this, unassigned_illegal op t s hp]; rfl
  simp only [List.mem_cons, Prod.mk.injEq, List.not_mem_nil, or_false] at hi
  obtain ⟨rfl, rfl⟩ | ⟨rfl, rfl⟩ | ⟨rfl, rfl⟩ | ⟨rfl, rfl⟩ | ⟨rfl, rfl⟩ | ⟨rfl, rfl⟩ | ⟨rfl, rfl⟩ | ⟨rfl, rfl⟩ |
    ⟨rfl, rfl⟩ | ⟨rfl, rfl⟩ := hi <;> rfl

/-- Under `AsLoop` every jump word runs as LOOP. -/
theorem runsAsLoop_asLoop (i : Instr) (t : Field) (ht : jumpTarget i = some t) : runsAsLoop .asLoop i = true := by
  cases i with
  | mov | add | sub | mul | div => cases ht
  | _ => rfl

/-- Settles O41: under `AsLoop` a jump word goes where LOOP goes. -/
theorem unassignedOpcodeRunsAsLoop : Obligations.UnassignedOpcodeRunsAsLoop := by
  unfold Obligations.UnassignedOpcodeRunsAsLoop
  intro s t x i hp hi
  have ht : jumpTarget i = some t := by
    simp only [List.mem_cons, List.not_mem_nil, or_false] at hi
    obtain rfl | rfl | rfl | rfl | rfl | rfl | rfl | rfl | rfl | rfl := hi <;> rfl
  rw [exec_of_runsAsLoop i t s ht (hp ▸ runsAsLoop_asLoop i t ht)]
  exact ⟨fun h => congrArg _ (loopNext_of_pos t s h), fun h => congrArg _ (loopNext_of_nonpos t s h)⟩

/-- The opcodes from 0101 on take operand1 raw, as a jump target (R66, R127). -/
theorem jumpTarget_decodeFields (f : Fields) (h : 5 ≤ f.opcode.toNat) :
    jumpTarget (decodeFields f) = some f.operand1 := by
  obtain ⟨op, a, b⟩ := f
  unfold decodeFields
  dsimp only at h ⊢
  split
  case h_1 | h_2 | h_3 | h_4 | h_5 => simp at h
  all_goals rfl

/-- A word of opcode 0101, or of an unassigned opcode under `AsLoop`, runs as LOOP to its operand1. -/
theorem exec_loopWord (w : Word) (s : State)
    (h : (splitFields w).opcode = 0b0101#4 ∨ (6 ≤ (splitFields w).opcode.toNat ∧ s.policy = .asLoop)) :
    exec (decode w) s = .next (loopNext (splitFields w).operand1 s) := by
  have hop : 5 ≤ (splitFields w).opcode.toNat := by
    obtain h5 | ⟨h6, -⟩ := h
    · rw [h5]; decide
    · omega
  have htarget := jumpTarget_decodeFields (splitFields w) hop
  refine exec_of_runsAsLoop (decode w) _ s htarget ?_
  obtain h5 | ⟨-, hp⟩ := h
  · simp [decode, decodeFields, h5, runsAsLoop]
  · exact hp ▸ runsAsLoop_asLoop (decode w) _ htarget

/-- LOOP does not look at IR. -/
theorem loopNext_loadIr (t : Field) (w : Word) (s : State) : loopNext t (loadIr w s) = loadIr w (loopNext t s) := by
  obtain ⟨hpos, e⟩ | ⟨hneg, e⟩ := loopNext_cases t s
  · rw [e, loopNext_of_pos t (loadIr w s) hpos]; rfl
  · rw [e, loopNext_of_nonpos t (loadIr w s) hneg]; rfl

/-- Bits 35:16 hold the opcode and operand1. -/
theorem splitFields_congr_high (v w : Word) (h : v.extractLsb' 16 20 = w.extractLsb' 16 20) :
    (splitFields v).opcode = (splitFields w).opcode ∧ (splitFields v).operand1 = (splitFields w).operand1 := by
  have hbit : ∀ k < 20, v.getLsbD (16 + k) = w.getLsbD (16 + k) := fun k hk => by
    simpa [hk] using congrArg (·.getLsbD k) h
  constructor
  · ext k hk
    simpa [splitFields, ← Nat.add_assoc] using hbit (16 + k) (by omega)
  · ext k hk
    simpa [splitFields] using hbit k (by omega)

/-- Settles O37: both words run as LOOP to the same target, which does not look at IR. -/
theorem loopIgnoresItsLowBits : Obligations.LoopIgnoresItsLowBits := by
  unfold Obligations.LoopIgnoresItsLowBits
  intro v w s h hop
  obtain ⟨hopcode, htarget⟩ := splitFields_congr_high v w h
  refine ⟨loopNext (splitFields v).operand1 (loadIr v s), exec_loopWord v (loadIr v s) hop, ?_⟩
  calc exec (decode w) (loadIr w s)
    _ = .next (loopNext (splitFields w).operand1 (loadIr w s)) :=
        exec_loopWord w (loadIr w s) (hopcode ▸ hop)
    _ = .next (loadIr w (loopNext (splitFields v).operand1 (loadIr v s))) := by
        rw [← htarget, loopNext_loadIr, loopNext_loadIr]; rfl

/-- A taken LOOP, as a step (R124). -/
theorem step_loop_taken (s : State) (w : Word) (t x : Field) (hs : s.st = .running) (hw : s.prog[s.pc]? = some w)
    (hd : decode w = .loop t x) (hpos : 0 < s.ecx) : step s = .next (redirectPc t (loadIr w s)) := by
  rw [step_of_fetch s w hs hw, hd]
  exact congrArg _ (loopNext_of_pos t (loadIr w s) hpos)

/-- Settles O38: the LOOP is taken, and the fetch at its target halts. -/
theorem loopPastTheProgramHaltsNext : Obligations.LoopPastTheProgramHaltsNext := by
  unfold Obligations.LoopPastTheProgramHaltsNext
  intro s w t x hs hw hd hpos hN
  have hhalt : step (redirectPc t (loadIr w s)) = .next (haltRun (redirectPc t (loadIr w s))) :=
    fetchPastTheProgramHalts _ hs hN
  rw [runSteps_succ _ _ _ (step_loop_taken s w t x hs hw hd hpos), runSteps_succ _ _ _ hhalt]
  rfl

/-- A step that answers its own state repeats forever. -/
theorem runSteps_of_step_eq_self (s : State) (h : step s = .next s) (k : Nat) : runSteps k s = .next s := by
  induction k with
  | zero => rfl
  | succ k ih => rw [runSteps_succ k s s h, ih]

/-- Settles O39: the first step loads IR, and each further one answers the state it started from. -/
theorem loopToItselfNeverEnds : Obligations.LoopToItselfNeverEnds := by
  unfold Obligations.LoopToItselfNeverEnds
  intro s w t x hs hw hd hself hpos
  have hstay : redirectPc t (loadIr w s) = loadIr w s := by rw [redirectPc, hself]; rfl
  have hfirst : step s = .next (loadIr w s) := hstay ▸ step_loop_taken s w t x hs hw hd hpos
  have hagain : step (loadIr w s) = .next (loadIr w s) :=
    (step_loop_taken (loadIr w s) w t x hs hw hd hpos).trans (congrArg _ hstay)
  have hafter : ∀ k, runSteps (k + 1) s = .next (loadIr w s) := fun k =>
    (runSteps_succ k s _ hfirst).trans (runSteps_of_step_eq_self _ hagain k)
  refine ⟨fun k => ?_, hafter⟩
  cases k with
  | zero => exact ⟨s, rfl, hs⟩
  | succ k => exact ⟨loadIr w s, hafter k, hs⟩

/-! ## How a run ends (R164) -/

/-- Settles O11: the policy is a parameter, which no run changes. -/
theorem noRunChangesThePolicy : Obligations.NoRunChangesThePolicy := by
  unfold Obligations.NoRunChangesThePolicy
  exact fun k s t h => ((parameters_eq_iff t s).mp (runSteps_parameters k s t h)).2

/-- Two runs from one state that have both ended have ended in one state. -/
theorem runSteps_ended_unique (k l : Nat) (s t u : State) (ht : runSteps k s = .next t) (hu : runSteps l s = .next u)
    (htend : t.st ≠ .running) (huend : u.st ≠ .running) : t = u := by
  induction k generalizing l s with
  | zero =>
    obtain rfl := Host.Outcome.next.inj ht
    cases l with
    | zero => exact Host.Outcome.next.inj hu
    | succ l =>
      obtain ⟨v, hv, -⟩ := runSteps_succ_next l s u hu
      exact absurd (step_next s v hv).1 htend
  | succ k ih =>
    obtain ⟨v, hv, hk⟩ := runSteps_succ_next k s t ht
    cases l with
    | zero =>
      obtain rfl := Host.Outcome.next.inj hu
      exact absurd (step_next s v hv).1 huend
    | succ l => exact ih l v hk (runSteps_succ l s v hv ▸ hu)

/-- A run of one more step, at its end. -/
theorem runSteps_succ_of_next (k : Nat) (s t : State) (h : runSteps k s = .next t) : runSteps (k + 1) s = step t := by
  induction k generalizing s with
  | zero =>
    obtain rfl := Host.Outcome.next.inj h
    cases hs : step s <;> simp [runSteps, hs]
  | succ k ih =>
    obtain ⟨v, hv, hk⟩ := runSteps_succ_next k s t h
    rw [runSteps_succ (k + 1) s v hv, ih v hk]

/-- A run that has no end keeps running, and else ends Halted or Faulted. -/
theorem ends_or_neverEnds (s : State) (hs : s.st = .running) : EndsHalted s ∨ EndsFaulted s ∨ NeverEnds s := by
  by_contra hno
  obtain ⟨hhalted, hfaulted, hnever⟩ := not_or.mp hno |>.imp_right not_or.mp
  refine hnever fun k => ?_
  induction k with
  | zero => exact ⟨s, rfl, hs⟩
  | succ k ih =>
    obtain ⟨t, ht, hrun⟩ := ih
    obtain ⟨u, hu⟩ := step_answers t hrun
    have hk : runSteps (k + 1) s = .next u := (runSteps_succ_of_next k s t ht).trans hu
    cases hst : u.st with
    | running => exact ⟨u, hk, hst⟩
    | halted => exact absurd ⟨k + 1, u, hk, hst⟩ hhalted
    | faulted record => exact absurd ⟨k + 1, u, record, hk, hst⟩ hfaulted

theorem not_endsHalted_and_endsFaulted (s : State) : ¬ (EndsHalted s ∧ EndsFaulted s) := by
  rintro ⟨⟨k, t, hk, ht⟩, l, u, record, hl, hu⟩
  obtain rfl := runSteps_ended_unique k l s t u hk hl (by simp [ht]) (by simp [hu])
  cases ht.symm.trans hu

theorem not_neverEnds_of_ended (k : Nat) (s t : State) (hk : runSteps k s = .next t) (ht : t.st ≠ .running) :
    ¬ NeverEnds s := by
  intro h
  obtain ⟨u, hu, hrun⟩ := h k
  obtain rfl := Host.Outcome.next.inj (hk.symm.trans hu)
  exact ht hrun

/-- Settles O8: steps are deterministic, and no step is defined from an ended run. -/
theorem runEndsInExactlyOneWay : Obligations.RunEndsInExactlyOneWay := by
  unfold Obligations.RunEndsInExactlyOneWay
  intro s hs
  have hboth := not_endsHalted_and_endsFaulted s
  have hhalted : EndsHalted s → ¬ NeverEnds s := fun ⟨k, t, hk, ht⟩ =>
    not_neverEnds_of_ended k s t hk (by simp [ht])
  have hfaulted : EndsFaulted s → ¬ NeverEnds s := fun ⟨k, t, record, hk, ht⟩ =>
    not_neverEnds_of_ended k s t hk (by simp [ht])
  have hone := ends_or_neverEnds s hs
  tauto

/-! ## Reset and the host (R160 to R167) -/

/-- Settles O1, field by field. -/
theorem resetSetsEveryRegisterAndKeepsParameters : Obligations.ResetSetsEveryRegisterAndKeepsParameters := by
  unfold Obligations.ResetSetsEveryRegisterAndKeepsParameters
  exact ⟨fun s => ⟨rfl, rfl, rfl, rfl, rfl, rfl, rfl, rfl⟩, rfl⟩

/-- Settles O12: Halted and Faulted read back alike. -/
theorem readBackIsTheFinalState : Obligations.ReadBackIsTheFinalState := by
  unfold Obligations.ReadBackIsTheFinalState
  refine fun s => ⟨fun hs => by rw [readBack, hs], fun hs => ?_⟩
  unfold readBack
  cases hst : s.st with
  | running => exact absurd hst hs
  | halted => rfl
  | faulted record => rfl

end Sys2Proof.Machine

/-! PROOFS. The data instructions (R90, R100 to R106): how each completes, in which order its faults come, and that MUL
undoes DIV. -/

namespace Sys2Proof.Machine

/-! ## Settled writes

A completed write through each destination, with the PC advanced (R46, R123). -/

theorem settle_write_ac (x : Value) (s : State) :
    settle s (writeOperand (.reg .ac) x s) = .next { s with ac := x, pc := s.pc + 1 } := rfl

theorem settle_write_ecx (x : Value) (s : State) :
    settle s (writeOperand (.reg .ecx) x s) = .next { s with ecx := x, pc := s.pc + 1 } := rfl

theorem settle_write_var (i : Nat) (x : Value) (s : State) (h : i < s.dm.length) :
    settle s (writeOperand (.var i) x s) = .next { s with dm := s.dm.set i x, pc := s.pc + 1 } := by
  rw [writeOperand_var_of_lt i x s h]
  rfl

theorem settle_write_append (x : Value) (s : State) :
    settle s (writeOperand (.var s.dm.length) x s) = .next { s with dm := s.dm ++ [x], pc := s.pc + 1 } := by
  simp only [writeOperand, memWrite_length]
  rfl

/-! ## MOV (R90) -/

theorem move_of_read (dst src : Operand) (s : State) (x : Value) (h : readOperand src s = .ok x) :
    move dst src s = writeOperand dst x s := by
  simp [move, h]

theorem exec_mov_of_read (dst src : Operand) (s : State) (x : Value) (h : readOperand src s = .ok x) :
    exec (.mov dst src) s = settle s (writeOperand dst x s) :=
  congrArg (settle s) (move_of_read dst src s x h)

/-- Settles O26: a MOV from a readable source is one settled write. -/
theorem movWritesTheSourceValue : Obligations.MovWritesTheSourceValue := by
  unfold Obligations.MovWritesTheSourceValue
  intro s src x h
  simp only [exec_mov_of_read _ src s x h]
  exact ⟨settle_write_ac x s, settle_write_ecx x s, fun i hi => settle_write_var i x s hi,
    fun _ => settle_write_append x s⟩

theorem exec_mov_of_error (dst src : Operand) (s : State) (c : FaultCause) (h : move dst src s = .error c) :
    exec (.mov dst src) s = .next { s with st := .faulted ⟨c, s.pc, s.ir⟩ } :=
  congrArg (settle s) h

theorem readOperand_var_of_le (j : Nat) (s : State) (h : s.dm.length ≤ j) :
    readOperand (.var j) s = .error (.dataReadOutOfBounds (operandCode (.var j)) j s.dm.length) :=
  memRead_of_le s.dm j h

theorem writeOperand_var_of_gt (i : Nat) (x : Value) (s : State) (h : s.dm.length < i) :
    writeOperand (.var i) x s = .error (.dataWriteOutOfBounds (operandCode (.var i)) i s.dm.length) := by
  simp only [writeOperand, memWrite_of_gt s.dm i x h]

/-- Settles O27: MOV's read comes before its write. -/
theorem movFaultsInOrder : Obligations.MovFaultsInOrder := by
  unfold Obligations.MovFaultsInOrder
  intro s dst src
  refine ⟨?_, fun x hx => ⟨?_, ?_⟩⟩
  · rintro j rfl hj
    exact exec_mov_of_error _ _ s _ ((move_error _ _ s _).mpr (.inl (readOperand_var_of_le j s hj)))
  · rintro c rfl
    exact exec_mov_of_error _ _ s _ ((move_error _ _ s _).mpr (.inr ⟨x, hx, writeOperand_lit c x s⟩))
  · rintro i rfl hi
    exact exec_mov_of_error _ _ s _ ((move_error _ _ s _).mpr (.inr ⟨x, hx, writeOperand_var_of_gt i x s hi⟩))

/-- Settles O28: the value written is the one already there. -/
theorem movToItselfChangesOnlyThePc : Obligations.MovToItselfChangesOnlyThePc := by
  unfold Obligations.MovToItselfChangesOnlyThePc
  intro s o x hlit h
  rw [exec_mov_of_read o o s x h]
  cases o with
  | lit c => exact absurd rfl (hlit c)
  | reg r =>
    obtain rfl := Except.ok.inj h
    cases r <;> rfl
  | var i =>
    obtain ⟨hi, rfl⟩ := List.getElem?_eq_some_iff.mp ((readOperand_var_ok_iff i x s).mp h)
    rw [settle_write_var i _ s hi, List.set_getElem_self]

/-! ## The arithmetic routine, completing (R100 to R104) -/

theorem alu_of_reads (op : Value → Value → Except FaultCause Value) (dst src : Operand) (s : State) (a b x : Value)
    (ha : readOperand dst s = .ok a) (hb : readOperand src s = .ok b) (hx : op a b = .ok x) :
    alu op dst src s = writeOperand dst x s := by
  simp [alu, ha, hb, hx]

/-- The arithmetic routine completes alike for each operation, where the operation itself raises nothing. -/
theorem alu_completes (op : Value → Value → Except FaultCause Value) (f : Value → Value → Value) (s : State)
    (src : Operand) (b : Value) (hb : readOperand src s = .ok b) (hop : ∀ a, op a b = .ok (f a b)) :
    settle s (alu op (.reg .ac) src s) = .next { s with ac := f s.ac b, pc := s.pc + 1 } ∧
    settle s (alu op (.reg .ecx) src s) = .next { s with ecx := f s.ecx b, pc := s.pc + 1 } ∧
    ∀ i a, s.dm[i]? = some a →
      settle s (alu op (.var i) src s) = .next { s with dm := s.dm.set i (f a b), pc := s.pc + 1 } := by
  refine ⟨?_, ?_, fun i a hi => ?_⟩
  · rw [alu_of_reads op _ src s s.ac b _ rfl hb (hop _), settle_write_ac]
  · rw [alu_of_reads op _ src s s.ecx b _ rfl hb (hop _), settle_write_ecx]
  · have hlt : i < s.dm.length := (List.getElem?_eq_some_iff.mp hi).1
    rw [alu_of_reads op _ src s a b _ ((readOperand_var_ok_iff i a s).mpr hi) hb (hop _), settle_write_var i _ s hlt]

/-- Settles O29: ADD's own operation raises nothing. -/
theorem addWritesTheSum : Obligations.AddWritesTheSum := by
  unfold Obligations.AddWritesTheSum
  exact fun s src b hb => alu_completes addOp (· + ·) s src b hb fun _ => rfl

/-- Settles O30: SUB's own operation raises nothing, whichever operand is the greater. -/
theorem subWritesTheDifference : Obligations.SubWritesTheDifference := by
  unfold Obligations.SubWritesTheDifference
  exact fun s src b hb => alu_completes subOp (· - ·) s src b hb fun _ => rfl

/-- Settles O31: MUL's own operation raises nothing. -/
theorem mulWritesTheProduct : Obligations.MulWritesTheProduct := by
  unfold Obligations.MulWritesTheProduct
  exact fun s src b hb => alu_completes mulOp (· * ·) s src b hb fun _ => rfl

/-- Settles O32: DIV's own operation raises nothing for this divisor. -/
theorem divWritesTheExactQuotient : Obligations.DivWritesTheExactQuotient := by
  unfold Obligations.DivWritesTheExactQuotient
  exact fun s src b hb hne => alu_completes divOp (· / ·) s src b hb fun _ => if_neg hne

/-! ## The faults of the arithmetic routine in their order (R100, R104, R147) -/

/-- ADD, SUB, MUL and DIV are the one routine on their own operation. -/
theorem exec_arithmetic (i : Instr) (dst src : Operand)
    (hi : i = .add dst src ∨ i = .sub dst src ∨ i = .mul dst src ∨ i = .div dst src) :
    ∃ op, ∀ s, exec i s = settle s (alu op dst src s) := by
  obtain rfl | rfl | rfl | rfl := hi
  exacts [⟨addOp, fun _ => rfl⟩, ⟨subOp, fun _ => rfl⟩, ⟨mulOp, fun _ => rfl⟩, ⟨divOp, fun _ => rfl⟩]

theorem settle_alu_of_error (op : Value → Value → Except FaultCause Value) (dst src : Operand) (s : State)
    (c : FaultCause) (h : alu op dst src s = .error c) :
    settle s (alu op dst src s) = .next { s with st := .faulted ⟨c, s.pc, s.ir⟩ } :=
  congrArg (settle s) h

/-- Settles O33: the two reads come first, operand1's before operand2's. -/
theorem arithmeticReadsFaultFirst : Obligations.ArithmeticReadsFaultFirst := by
  unfold Obligations.ArithmeticReadsFaultFirst
  intro s dst src i hi
  obtain ⟨op, hexec⟩ := exec_arithmetic i dst src hi
  rw [hexec s]
  refine ⟨?_, ?_⟩
  · rintro j rfl hj
    exact settle_alu_of_error op _ _ s _ ((alu_error op _ _ s _).mpr (.inl (readOperand_var_of_le j s hj)))
  · rintro j a ha rfl hj
    exact settle_alu_of_error op _ _ s _
      ((alu_error op _ _ s _).mpr (.inr ⟨a, ha, .inl (readOperand_var_of_le j s hj)⟩))

/-- A literal destination faults once the operation has a result. -/
theorem settle_alu_lit (op : Value → Value → Except FaultCause Value) (c : Nat) (src : Operand) (s : State)
    (a b x : Value) (ha : readOperand (.lit c) s = .ok a) (hb : readOperand src s = .ok b) (hx : op a b = .ok x) :
    settle s (alu op (.lit c) src s) =
      .next { s with st := .faulted ⟨.illegalDestination (operandCode (.lit c)), s.pc, s.ir⟩ } :=
  settle_alu_of_error op _ src s _ ((alu_of_reads op _ src s a b x ha hb hx).trans (writeOperand_lit c x s))

/-- Settles O34: the operation comes before the write. -/
theorem divideByZeroThenIllegalDestination : Obligations.DivideByZeroThenIllegalDestination := by
  unfold Obligations.DivideByZeroThenIllegalDestination
  intro s dst src a b ha hb
  refine ⟨?_, ?_⟩
  · rintro rfl
    exact settle_alu_of_error divOp dst src s _
      ((alu_error divOp dst src s _).mpr (.inr ⟨a, ha, .inr ⟨0, hb, .inl (if_pos rfl)⟩⟩))
  · rintro c rfl
    refine ⟨fun hne => settle_alu_lit divOp c src s a b _ ha hb (if_neg hne), ?_⟩
    rintro i (rfl | rfl | rfl)
    · exact settle_alu_lit addOp c src s a b _ ha hb rfl
    · exact settle_alu_lit subOp c src s a b _ ha hb rfl
    · exact settle_alu_lit mulOp c src s a b _ ha hb rfl

/-! ## MUL undoes DIV (R104, R105) -/

theorem divOp_ok (a b x : Value) (h : divOp a b = .ok x) : b ≠ 0 ∧ x = a / b := by
  unfold divOp at h
  split at h
  · cases h
  · exact ⟨‹_›, (Except.ok.inj h).symm⟩

/-- A DIV that leaves the core running had a divisor other than 0 and a destination that can be written. -/
theorem exec_div_running (dst src : Operand) (s t : State) (b : Value) (hb : readOperand src s = .ok b)
    (h : exec (.div dst src) s = .next t) (ht : t.st = .running) :
    b ≠ 0 ∧ (∃ a, readOperand dst s = .ok a) ∧ ∀ c, dst ≠ .lit c := by
  obtain ⟨v, hv, rfl⟩ | ⟨c, -, rfl⟩ := settle_next _ _ _ h
  · obtain ⟨a, b', x, ha, hb', hx, hw⟩ := (alu_ok divOp dst src s v).mp hv
    obtain rfl := Except.ok.inj (hb.symm.trans hb')
    refine ⟨(divOp_ok a b x hx).1, ⟨a, ha⟩, ?_⟩
    rintro c rfl
    cases hw
  · cases ht

/-- Settles O35: the product of the quotient and its divisor is the value divided, written back to its place. -/
theorem mulUndoesDiv : Obligations.MulUndoesDiv := by
  unfold Obligations.MulUndoesDiv
  intro s t u dst c hs hdiv ht hmul
  obtain ⟨hne, ⟨a, ha⟩, hlit⟩ := exec_div_running dst (.lit c) s t c rfl hdiv ht
  obtain ⟨divAc, divEcx, divVar⟩ := divWritesTheExactQuotient s (.lit c) c rfl hne
  obtain ⟨mulAc, mulEcx, mulVar⟩ := mulWritesTheProduct t (.lit c) c rfl
  cases dst with
  | lit k => exact absurd rfl (hlit k)
  | reg r =>
    cases r with
    | ac =>
      obtain rfl := Host.Outcome.next.inj (divAc.symm.trans hdiv)
      rw [← Host.Outcome.next.inj (mulAc.symm.trans hmul), div_mul_cancel₀ _ hne]
    | ecx =>
      obtain rfl := Host.Outcome.next.inj (divEcx.symm.trans hdiv)
      rw [← Host.Outcome.next.inj (mulEcx.symm.trans hmul), div_mul_cancel₀ _ hne]
  | var i =>
    have hi : s.dm[i]? = some a := (readOperand_var_ok_iff i a s).mp ha
    obtain ⟨hlt, rfl⟩ := List.getElem?_eq_some_iff.mp hi
    obtain rfl := Host.Outcome.next.inj ((divVar i _ hi).symm.trans hdiv)
    have hquot := mulVar i _ (List.getElem?_set_self hlt)
    rw [← Host.Outcome.next.inj (hquot.symm.trans hmul), div_mul_cancel₀ _ hne, List.set_set, List.set_getElem_self]

end Sys2Proof.Machine

/-! PROOFS. Programs that write their variables in order (R170): where every jump goes backward, the memory holds, at
each index, the slots that the program has written before it. -/

namespace Sys2Proof.Machine

/-! ## What the order demands of one instruction -/

section
variable (k n n' : Nat) (i : Instr) (h : writtenAfter k n i = some n')
include h

/-- Every operand read is one already written. -/
theorem operandWithin_of_writtenAfter : ∀ o ∈ reads i, operandWithin n o = true := by
  cases i with
  | mov d src => cases d <;> simp only [writtenAfter, reads, List.mem_singleton, forall_eq] at h ⊢ <;> grind
  | add | sub | mul | div => simp only [writtenAfter, reads, List.forall_mem_cons] at h ⊢; grind
  | _ => nofun

/-- The instruction writes no new slot, or the next one. -/
theorem writtenAfter_cases : n' = n ∨ (n' = n + 1 ∧ destination i = some (.var n)) := by
  cases i with
  | mov d src => cases d <;> simp only [writtenAfter, destination] at h ⊢ <;> grind
  | _ => simp only [writtenAfter] at h; grind

/-- A jump goes backward or to its own index, and writes nothing. -/
theorem jumpTarget_le_of_writtenAfter (t : Field) (ht : jumpTarget i = some t) : t.toNat ≤ k ∧ n' = n := by
  cases i with
  | mov | add | sub | mul | div => cases ht
  | _ =>
    obtain rfl := Option.some.inj ht
    simpa [writtenAfter, eq_comm] using h

end

/-- A MOV to a variable overwrites a written slot or writes the next one. -/
theorem slot_le_of_writtenAfter_mov (k n n' j : Nat) (src : Operand)
    (h : writtenAfter k n (.mov (.var j) src) = some n') : j ≤ n := by
  simp only [writtenAfter] at h
  grind

/-! ## No fault on a data-memory bound -/

/-- The cause is neither of the two data-memory bounds. -/
def NotOutOfBounds (c : FaultCause) : Prop :=
  (∀ o i n, c ≠ .dataReadOutOfBounds o i n) ∧ ∀ o i n, c ≠ .dataWriteOutOfBounds o i n

/-- An instruction in order stays within the `n` slots that the memory holds. -/
theorem Raises.notOutOfBounds (s : State) (i : Instr) (c : FaultCause) (k n n' : Nat) (hr : Raises s i c)
    (h : writtenAfter k n i = some n') (hn : n ≤ s.dm.length) : NotOutOfBounds c := by
  cases hr with
  | missingCell i j read missing =>
    have hj : j < n := of_decide_eq_true (operandWithin_of_writtenAfter k n n' i h _ read)
    omega
  | gap j src past =>
    have hj := slot_le_of_writtenAfter_mov k n n' j src h
    omega
  | zeroDivisor | literalDestination | unassignedOpcode => exact ⟨nofun, nofun⟩

/-- The memory after a write in order holds the slots written by then. -/
theorem writtenAfter_le_of_write (i : Instr) (d : Operand) (x : Value) (s v : State) (k n n' : Nat)
    (h : writtenAfter k n i = some n') (hn : n ≤ s.dm.length) (hd : destination i = some d)
    (hw : writeOperand d x s = .ok v) : n' ≤ v.dm.length := by
  obtain rfl | ⟨rfl, hdest⟩ := writtenAfter_cases k n n' i h
  · obtain hlen | ⟨hlen, -⟩ := writeOperand_ok_dm_length d x s v hw <;> omega
  · obtain rfl := Option.some.inj (hd.symm.trans hdest)
    obtain ⟨r, hr, -⟩ | ⟨j, m, hj, hm, rfl⟩ := writeOperand_ok _ x s v hw
    · cases hr
    · obtain rfl := Operand.var.inj hj
      exact (List.getElem?_eq_some_iff.mp (memWrite_same s.dm m n x hm)).1

/-! ## The invariant of a run -/

/-- At every index up to PC the memory holds the slots written before that index, and the program goes on in order from
there. It is asked of every index up to PC because a jump may return to any of them. -/
def WrittenUpToPc (s : State) : Prop :=
  ∀ j ≤ s.pc, ∃ n ≤ s.dm.length, writesInOrder j n ((s.prog.map decode).drop j) = true

/-- More cells and a PC that is no later keep it. -/
theorem WrittenUpToPc.mono (s u : State) (hs : WrittenUpToPc s) (hprog : u.prog = s.prog)
    (hdm : s.dm.length ≤ u.dm.length) (hpc : u.pc ≤ s.pc) : WrittenUpToPc u := by
  intro j hj
  obtain ⟨n, hn, horder⟩ := hs j (hj.trans hpc)
  exact ⟨n, hn.trans hdm, hprog ▸ horder⟩

/-- The advance to the next word keeps it, where the memory holds the slots written by then. -/
theorem WrittenUpToPc.advance (s u : State) (hs : WrittenUpToPc s) (hprog : u.prog = s.prog)
    (hdm : s.dm.length ≤ u.dm.length) (hpc : u.pc = s.pc + 1)
    (hnext : ∃ n ≤ u.dm.length, writesInOrder (s.pc + 1) n ((s.prog.map decode).drop (s.pc + 1)) = true) :
    WrittenUpToPc u := by
  intro j hj
  obtain hle | rfl : j ≤ s.pc ∨ j = s.pc + 1 := by omega
  · obtain ⟨n, hn, horder⟩ := hs j hle
    exact ⟨n, hn.trans hdm, hprog ▸ horder⟩
  · exact hprog ▸ hnext

theorem writesInOrder_cons (k n : Nat) (i : Instr) (rest : List Instr) :
    writesInOrder k n (i :: rest) = true ↔
      ∃ n', writtenAfter k n i = some n' ∧ writesInOrder (k + 1) n' rest = true := by
  rw [writesInOrder]
  cases writtenAfter k n i <;> simp

/-- What the order says of the word at PC. -/
theorem WrittenUpToPc.fetched (s : State) (w : Word) (hs : WrittenUpToPc s) (hw : fetchWord s = some w) :
    ∃ n n', n ≤ s.dm.length ∧ writtenAfter s.pc n (decode w) = some n' ∧
      writesInOrder (s.pc + 1) n' ((s.prog.map decode).drop (s.pc + 1)) = true := by
  obtain ⟨n, hn, horder⟩ := hs s.pc le_rfl
  obtain ⟨hpc, rfl⟩ := List.getElem?_eq_some_iff.mp hw
  rw [List.drop_eq_getElem_cons (by simpa using hpc), List.getElem_map, writesInOrder_cons] at horder
  obtain ⟨n', hafter, hrest⟩ := horder
  exact ⟨n, n', hn, hafter, hrest⟩

/-- What a run keeps: the order, and no fault on a data-memory bound. -/
structure StaysInBounds (s : State) : Prop where
  written : WrittenUpToPc s
  status : ∀ record, s.st = .faulted record → NotOutOfBounds record.cause

/-- A loaded word that ends in any of its three ways. -/
theorem StaysInBounds.ends (s u : State) (w : Word) (hs : StaysInBounds s) (hst : s.st = .running)
    (hw : fetchWord s = some w) (h : Ends (decode w) (loadIr w s) u) : StaysInBounds u := by
  obtain ⟨n, n', hn, hafter, hrest⟩ := hs.written.fetched s w hw
  cases h with
  | faulted c hc =>
    refine ⟨hs.written.mono s _ rfl le_rfl le_rfl, ?_⟩
    rintro _ ⟨⟩
    exact hc.notOutOfBounds (loadIr w s) _ c s.pc n n' hafter hn
  | looped t ht hl =>
    obtain ⟨hback, rfl⟩ := jumpTarget_le_of_writtenAfter s.pc n n' _ hafter t ht
    refine ⟨?_, fun record hrecord => ?_⟩
    · obtain hpc | hpc := loopNext_pc t (loadIr w s)
      · exact hs.written.advance s _ (loopNext_prog _ _) (by simp) hpc ⟨n', by simpa using hn, hrest⟩
      · exact hs.written.mono s _ (loopNext_prog _ _) (by simp) (hpc ▸ hback)
    · cases (hst.symm.trans (loopNext_st t (loadIr w s)).symm).trans hrecord
  | wrote d x v hd hwrite hread =>
    have hlen : s.dm.length ≤ v.dm.length := by
      obtain e | ⟨e, -⟩ := writeOperand_ok_dm_length d x (loadIr w s) v hwrite <;> simp [e]
    have hprog : v.prog = s.prog := writeOperand_ok_prog d x (loadIr w s) v hwrite
    have hpc : v.pc + 1 = s.pc + 1 := congrArg (· + 1) (writeOperand_ok_pc d x (loadIr w s) v hwrite)
    have hnext : n' ≤ v.dm.length := writtenAfter_le_of_write _ d x (loadIr w s) v s.pc n n' hafter hn hd hwrite
    refine ⟨hs.written.advance s _ hprog hlen hpc ⟨n', hnext, hrest⟩, fun record hrecord => ?_⟩
    · cases (hst.symm.trans (writeOperand_ok_st d x (loadIr w s) v hwrite).symm).trans hrecord

theorem step_staysInBounds (s t : State) (hs : StaysInBounds s) (h : step s = .next t) : StaysInBounds t := by
  obtain ⟨hst, ⟨-, rfl⟩ | ⟨w, hw, he⟩⟩ := step_next s t h
  · exact ⟨hs.written.mono s _ rfl le_rfl le_rfl, nofun⟩
  · exact hs.ends s t w hst hw (exec_ends (decode w) (loadIr w s) t he)

/-- Settles O52: at reset nothing is written and the whole program is in order. -/
theorem programsThatWriteInOrderStayInBounds : Obligations.ProgramsThatWriteInOrderStayInBounds := by
  unfold Obligations.ProgramsThatWriteInOrderStayInBounds
  intro ws policy horder k t record hk
  have hreset : StaysInBounds (resetWith ws policy) := by
    refine ⟨fun j hj => ⟨0, le_rfl, ?_⟩, nofun⟩
    obtain rfl : j = 0 := Nat.le_zero.mp hj
    exact horder
  exact (runSteps_induction StaysInBounds step_staysInBounds k _ t hreset hk).status record

end Sys2Proof.Machine

/-! PROOFS. The assembler (R75 to R85): the symbol table, operand tokens, the errors of a line, and where the assembled
LOOPs go. -/

namespace Sys2Proof.Machine.Assembler

/-! ## The symbol table (R78) -/

/-- Settles O49: what every line keeps of the table, all the lines keep. -/
theorem symbolTableOnlyGrowsAtItsEnd : Obligations.SymbolTableOnlyGrowsAtItsEnd := by
  unfold Obligations.SymbolTableOnlyGrowsAtItsEnd
  intro a b ls hnodup hcap h
  obtain ⟨is, his⟩ := assembleFrom_emitsLines a b ls h
  exact ⟨his.table.isPrefix, his.table.nodup hnodup, his.table.capacity hcap⟩

theorem allocate_known (symbols : Symbols) (t : Text) (k : Nat) (hk : symbols[k]? = some t) (hnodup : symbols.Nodup) :
    allocate symbols t = .ok (k, symbols) := by
  obtain ⟨hlt, rfl⟩ := List.getElem?_eq_some_iff.mp hk
  have hidx : symbols.idxOf? symbols[k] = some k := by
    rw [List.idxOf?_eq_some_iff]
    exact ⟨hlt, rfl, fun j hj h => absurd ((List.Nodup.getElem_inj_iff hnodup).mp h) (by omega)⟩
  simp [allocate, hidx]

theorem allocate_new (symbols : Symbols) (t : Text) (hnew : t ∉ symbols) (hcap : symbols.length ≤ 32765) :
    allocate symbols t = .ok (symbols.length, symbols ++ [t]) := by
  simp [allocate, List.idxOf?_eq_none_iff.mpr hnew, hcap]

theorem allocate_full (symbols : Symbols) (t : Text) (hnew : t ∉ symbols) (hfull : symbols.length = 32766) :
    allocate symbols t = .error .variableSpaceExhausted := by
  simp [allocate, List.idxOf?_eq_none_iff.mpr hnew, hfull]

/-! ## Operand tokens (R76, R77)

The forms of a token exclude each other, so that the order in which they are tried does not matter. -/

/-- A variable's name starts with a letter. -/
theorem isDecimal_of_isVariableName (t : Text) (h : isVariableName t = true) : isDecimal t = false := by
  cases t with
  | nil => rfl
  | cons c cs =>
    have hlower : c.isLower = true := (Bool.and_eq_true_iff.mp h).1
    have hdigit : c.isDigit = false := by
      simp only [Char.isLower, Char.isDigit, Bool.and_eq_true, decide_eq_true_eq, Bool.and_eq_false_iff,
        decide_eq_false_iff_not] at hlower ⊢
      grind
    simp [isDecimal, hdigit]

/-- The register mnemonics are in upper case. -/
theorem registerNamed_of_isVariableName (t : Text) (h : isVariableName t = true) : registerNamed t = none := by
  have hac : t ≠ ['A', 'C'] := by
    rintro rfl
    revert h
    decide
  have hecx : t ≠ ['E', 'C', 'X'] := by
    rintro rfl
    revert h
    decide
  simp [registerNamed, hac, hecx]

theorem resolveOperand_of_variable (symbols : Symbols) (t : Text) (h : isVariableName t = true) :
    resolveOperand symbols t = (allocate symbols t).map fun p => (.var p.1, p.2) := by
  simp only [resolveOperand, isDecimal_of_isVariableName t h, registerNamed_of_isVariableName t h, h, if_true,
    Bool.false_eq_true, if_false]
  cases allocate symbols t <;> rfl

/-- Settles O50, form by form. -/
theorem operandTokensEncodeAsTheirForms : Obligations.OperandTokensEncodeAsTheirForms := by
  unfold Obligations.OperandTokensEncodeAsTheirForms
  refine fun symbols t => ⟨?_, ?_, fun hdec hle => ?_, fun hvar => ⟨fun k hk hnodup => ?_, fun hnew hcap => ?_⟩⟩
  · rintro rfl
    rfl
  · rintro rfl
    rfl
  · simp [resolveOperand, hdec, hle]
  · rw [resolveOperand_of_variable symbols t hvar, allocate_known symbols t k hk hnodup]
    rfl
  · rw [resolveOperand_of_variable symbols t hvar, allocate_new symbols t hnew hcap]
    rfl

/-! ## Errors (R84) -/

theorem resolveOperand_of_tokenError (symbols : Symbols) (t : Text) (e : AsmError) (h : tokenError symbols t e) :
    resolveOperand symbols t = .error e := by
  cases e with
  | literalOverflow =>
    obtain ⟨hdec, hbig⟩ := h
    simp [resolveOperand, hdec, Nat.not_le.mpr hbig]
  | variableSpaceExhausted =>
    obtain ⟨hvar, hnew, hfull⟩ := h
    rw [resolveOperand_of_variable symbols t hvar, allocate_full symbols t hnew hfull]
    rfl
  | unresolvableOperand =>
    obtain ⟨hdec, hreg, hvar⟩ := h
    simp [resolveOperand, hdec, hreg, hvar]
  | unknownOperator | operandCount | noActiveLabel => exact h.elim

theorem assembleData_of_length_ne (make : Operand → Operand → Instr) (a : AsmState) (operands : List Text)
    (h : operands.length ≠ 2) : assembleData make a operands = .error .operandCount := by
  unfold assembleData
  split
  · exact absurd rfl h
  · rfl

theorem assembleData_of_error1 (make : Operand → Operand → Instr) (a : AsmState) (t1 t2 : Text) (e : AsmError)
    (h1 : resolveOperand a.symbols t1 = .error e) : assembleData make a [t1, t2] = .error e := by
  simp [assembleData, h1]

theorem assembleData_of_error2 (make : Operand → Operand → Instr) (a : AsmState) (t1 t2 : Text) (o : Operand)
    (symbols : Symbols) (e : AsmError) (h1 : resolveOperand a.symbols t1 = .ok (o, symbols))
    (h2 : resolveOperand symbols t2 = .error e) : assembleData make a [t1, t2] = .error e := by
  simp [assembleData, h1, h2]

/-- The data mnemonics share one routine. -/
theorem assembleLine_data (a : AsmState) (m : Text) (operands : List Text) (n : Mnemonic)
    (hm : mnemonicNamed m = some n) (hn : n ≠ .loop) :
    ∃ make, assembleLine a (.instr m operands) = assembleData make a operands := by
  cases n with
  | loop => exact absurd rfl hn
  | _ => exact ⟨_, by simp only [assembleLine, hm]; rfl⟩

theorem assembleLine_loop (a : AsmState) (m : Text) (operands : List Text) (hm : mnemonicNamed m = some .loop) :
    assembleLine a (.instr m operands) = assembleLoop a operands := by
  simp [assembleLine, hm]

theorem assembleLoop_of_operands (a : AsmState) (operands : List Text) (h : operands ≠ []) :
    assembleLoop a operands = .error .operandCount := by
  cases operands with
  | nil => exact absurd rfl h
  | cons t ts => rfl

theorem assembleLoop_of_no_target (a : AsmState) (h : a.target = none) :
    assembleLoop a [] = .error .noActiveLabel := by
  simp [assembleLoop, h]

theorem assembleLoop_of_target_overflow (a : AsmState) (n : Nat) (h : a.target = some n) (hn : 65535 < n) :
    assembleLoop a [] = .error .literalOverflow := by
  simp [assembleLoop, h, Nat.not_le.mpr hn]

/-- The first line in error aborts the text. -/
theorem assemble_of_line_error (text : List Text) (pre post : List AsmLine) (l : AsmLine) (a : AsmState) (e : AsmError)
    (htext : text.map parseAsmLine = pre ++ l :: post) (hpre : assembleFrom AsmState.start pre = .ok a)
    (hl : assembleLine a l = .error e) : assemble text = .error e := by
  have hfrom : assembleFrom AsmState.start (text.map parseAsmLine) = .error e := by
    rw [htext, assembleFrom_append _ a pre _ hpre, assembleFrom, hl]
  rw [assemble, hfrom]

/-- Settles O51: the checks of a line in their order, and the abort. -/
theorem assemblerErrorsHaveTheirCauses : Obligations.AssemblerErrorsHaveTheirCauses := by
  unfold Obligations.AssemblerErrorsHaveTheirCauses
  refine ⟨fun a m operands => ⟨fun hm => ?_, fun n hm hn => ?_, fun hm => ?_⟩, assemble_of_line_error⟩
  · simp [assembleLine, hm]
  · obtain ⟨make, hline⟩ := assembleLine_data a m operands n hm hn
    rw [hline]
    refine ⟨assembleData_of_length_ne make a operands, ?_⟩
    rintro t1 t2 e rfl
    exact ⟨fun h1 => assembleData_of_error1 make a t1 t2 e (resolveOperand_of_tokenError _ t1 e h1),
      fun o symbols h1 h2 =>
        assembleData_of_error2 make a t1 t2 o symbols e h1 (resolveOperand_of_tokenError symbols t2 e h2)⟩
  · rw [assembleLine_loop a m operands hm]
    refine ⟨assembleLoop_of_operands a operands, ?_, ?_⟩
    · rintro rfl
      exact assembleLoop_of_no_target a
    · rintro n rfl
      exact assembleLoop_of_target_overflow a n

/-! ## Where the assembled LOOPs go (R81) -/

/-- The active target is no further than the counter, and each jump emitted is a LOOP to its own index or one before it,
with zeros below its target. -/
structure JumpsBackward (a : AsmState) : Prop where
  target : ∀ n, a.target = some n → n ≤ counter a
  emitted : ∀ k i t, a.emitted[k]? = some i → jumpTarget i = some t → i = .loop t 0 ∧ t.toNat ≤ k

theorem JumpsBackward.start : JumpsBackward AsmState.start := ⟨nofun, nofun⟩

theorem assembleLine_jumpsBackward (a b : AsmState) (l : AsmLine) (ha : JumpsBackward a)
    (h : assembleLine a l = .ok b) : JumpsBackward b := by
  cases l with
  | label =>
    obtain rfl := assembleLine_label_ok a b h
    exact ⟨fun n hn => (Option.some.inj hn).ge, ha.emitted⟩
  | instr m operands =>
    obtain ⟨i, htarget, hemit, -, -, -, hjump⟩ := assembleLine_instr_ok a b m operands h
    have hcounter : counter b = counter a + 1 := by simp [counter, hemit]
    refine ⟨fun n hn => ?_, fun k j t hk ht => ?_⟩
    · have := ha.target n (htarget ▸ hn)
      omega
    · obtain hlt | rfl | hgt := Nat.lt_trichotomy k a.emitted.length
      · exact ha.emitted k j t (by rwa [hemit, List.getElem?_append_left hlt] at hk) ht
      · obtain rfl : i = j := by simpa [hemit] using hk
        obtain ⟨-, n, t', hn, htn, rfl⟩ | ⟨-, hnone⟩ := hjump
        · obtain rfl := Option.some.inj ht
          exact ⟨rfl, htn ▸ ha.target n hn⟩
        · cases hnone.symm.trans ht
      · obtain ⟨hk, -⟩ := List.getElem?_eq_some_iff.mp hk
        simp only [counter] at hcounter
        omega

theorem assembleFrom_jumpsBackward (a b : AsmState) (ls : List AsmLine) (ha : JumpsBackward a)
    (h : assembleFrom a ls = .ok b) : JumpsBackward b := by
  induction ls generalizing a with
  | nil => exact Except.ok.inj h ▸ ha
  | cons l ls ih =>
    obtain ⟨c, hl, hc⟩ := (assembleFrom_cons_ok a b l ls).mp h
    exact ih c (assembleLine_jumpsBackward a c l ha hl) hc

/-- A LOOP line assembles only after a label marker. -/
theorem label_mem_of_loop (a : AsmState) (pre post : List AsmLine)
    (h : assembleFrom AsmState.start (pre ++ .instr ['L', 'O', 'O', 'P'] [] :: post) = .ok a) : .label ∈ pre := by
  by_contra hno
  obtain ⟨b, hpre, hrest⟩ := assembleFrom_append_ok _ a pre _ h
  obtain ⟨c, hloop, -⟩ := (assembleFrom_cons_ok b a _ post).mp hrest
  have hnone : b.target = none := assembleFrom_target_of_no_label _ b pre hno hpre
  cases (assembleLoop_of_no_target b hnone).symm.trans hloop

/-- The instructions that decoding an assembled text gives back. -/
theorem map_decode_of_assemble (text : List Text) (ws : List Word) (h : assemble text = .ok ws) :
    ∃ a, assembleFrom AsmState.start (text.map parseAsmLine) = .ok a ∧ ws.map decode = a.emitted := by
  obtain ⟨a, ha, rfl⟩ := assemble_ok text ws h
  obtain ⟨is, his⟩ := assembleFrom_emitsLines _ a _ ha
  have hemit : a.emitted = is := his.emitted
  exact ⟨a, ha, map_decode_map_encode _ (hemit ▸ his.wf (Nat.zero_le _))⟩

/-- Settles O48: the active target is a counter of the past, and there is none before the first label marker. -/
theorem assembledLoopsJumpBackward : Obligations.AssembledLoopsJumpBackward := by
  unfold Obligations.AssembledLoopsJumpBackward
  intro text ws h
  obtain ⟨a, ha, hdecode⟩ := map_decode_of_assemble text ws h
  refine ⟨fun k w t hk ht => ?_, fun pre post htext => label_mem_of_loop a pre post (htext ▸ ha)⟩
  have hback := assembleFrom_jumpsBackward _ a _ .start ha
  refine hback.emitted k (decode w) t ?_ ht
  rw [← hdecode, List.getElem?_map, hk, Option.map_some]

end Sys2Proof.Machine.Assembler
